-- ==== Sys2Proof/Word.lean ====
section
/-! DEFINITION. The widths SPC fixes (R6, R7) and the two groups the codec works on (R13). -/

namespace Sys2Proof

/-- A byte, or a character as its 8-bit code (R6, R87: `SYM_W` = 8). -/
abbrev Byte := BitVec 8

/-- A 6-bit value, 0 to 63 (R6). -/
abbrev Value := BitVec 6

/-- A command word, `CMD_W` = 35 bits (R7, R62). -/
abbrev CommandWord := BitVec 35

/-- A response word, `RSP_W` = 37 bits (R7, R64). -/
abbrev ResponseWord := BitVec 37

/-- A Byte Triplet: "a group of 3 raw bytes processed together" (R13). -/
structure Triplet where
  b1 : Byte
  b2 : Byte
  b3 : Byte
  deriving DecidableEq, Repr

/-- Four items in sequence order: a Symbol Quadruplet (R13), or the four 6-bit lanes it stands for (R93). -/
structure Quartet (α : Type) where
  i1 : α
  i2 : α
  i3 : α
  i4 : α
  deriving DecidableEq, Repr

/-- The bytes of a triplet in order (R43). -/
def Triplet.toList (t : Triplet) : List Byte := [t.b1, t.b2, t.b3]

/-- The items of a quartet in order (R43). -/
def Quartet.toList {α : Type} (q : Quartet α) : List α := [q.i1, q.i2, q.i3, q.i4]

/-- One function applied to each lane: no lane is treated differently from another (R93). -/
def Quartet.map {α β : Type} (f : α → β) (q : Quartet α) : Quartet β :=
  ⟨f q.i1, f q.i2, f q.i3, f q.i4⟩

end Sys2Proof
end

