-- ==== Sys2Proof/Syntax.lean ====
section
/-! DEFINITION. The eight commands of SPC (R63, R67), the response it gives to each (R64, R141), and the
names of the failures (R140). -/

namespace Sys2Proof

/-- A command with its operands (R63, R67). The 6-bit operand of `symof` makes the precondition `v: 0..=63`
hold by construction; the argument bits a command does not use are not part of it (R65, R72). -/
inductive Instr where
  /-- `SYMOF v` (R85). -/
  | symof (v : Value)
  /-- `VALOF c` (R86). -/
  | valof (c : Byte)
  /-- `PACK b1, b2, b3` (R95). -/
  | pack (b1 b2 b3 : Byte)
  /-- `UNPACK s1, s2, s3, s4` (R97). -/
  | unpack (s1 s2 s3 s4 : Byte)
  /-- `EPUSH b` (R104). -/
  | epush (b : Byte)
  /-- `EEND` (R106). -/
  | eend
  /-- `DPUSH c` (R110). -/
  | dpush (c : Byte)
  /-- `DEND` (R112). -/
  | dend
  deriving DecidableEq, Repr

/-- The families of R63: the two stateless ones, and one for each of the units ENC and DEC. -/
inductive Family where
  | alphabet
  | triplet
  | enc
  | dec
  deriving DecidableEq, Repr

/-- The family column of R63. -/
def Instr.family : Instr → Family
  | .symof _ => .alphabet
  | .valof _ => .alphabet
  | .pack _ _ _ => .triplet
  | .unpack _ _ _ _ => .triplet
  | .epush _ => .enc
  | .eend => .enc
  | .dpush _ => .dec
  | .dend => .dec

/-- The leaf commands: `SYMOF`, `VALOF`, `PACK`, `UNPACK` (R20, R47). -/
def Instr.isLeaf (i : Instr) : Bool := i.family == .alphabet || i.family == .triplet

/-- The mnemonic column of R63. -/
def Instr.mnemonic : Instr → String
  | .symof _ => "SYMOF"
  | .valof _ => "VALOF"
  | .pack _ _ _ => "PACK"
  | .unpack _ _ _ _ => "UNPACK"
  | .epush _ => "EPUSH"
  | .eend => "EEND"
  | .dpush _ => "DPUSH"
  | .dend => "DEND"

/-- The status of a response (R141). The code 3 is never produced and has no constructor (R68, U3). -/
inductive Status where
  /-- No failure; for `DPUSH`, only "character taken" (R145). -/
  | ok
  /-- `MalformedLength`, raised by `DEND` only (R142). -/
  | malformedLength
  /-- `InvalidSymbol`, raised by `VALOF`, `UNPACK` and `DEND` (R143). -/
  | invalidSymbol
  deriving DecidableEq, Repr

/-- The one response a command produces (R64): status, item count, items. -/
structure Response where
  st : Status
  n : BitVec 3
  dat : BitVec 32
  deriving DecidableEq, Repr

/-- The four kinds of the document's error taxonomy (R140). SPC raises the first two; the last two arise in
host software only (R137). -/
inductive CodecError where
  | malformedLength
  | invalidSymbol
  | upstreamCodecFailure
  | invalidUtf8
  deriving DecidableEq, Repr

/-- What a decoding function returns: a buffer or an error, never both (R103). -/
inductive CodecResult where
  | ok (bytes : List Byte)
  | err (e : CodecError)
  deriving DecidableEq, Repr, Inhabited

/-- Go on with the buffer of a result that has one; an error is passed on (R137: none is swallowed). -/
def CodecResult.andThen (r : CodecResult) (f : List Byte → CodecResult) : CodecResult :=
  match r with
  | .ok bytes => f bytes
  | .err e => .err e

end Sys2Proof
end

