-- ==== Sys2Proof/WellFormed.lean ====
section
/-! DEFINITION. What makes a command and a response well formed. -/

namespace Sys2Proof

/-- Every command is well formed: there is no illegal command, no reserved opcode and no operand out of range,
since each operand is exactly as wide as its field (R67, R68, R94). -/
def Instr.wf : Instr → Bool
  | .symof _ => true
  | .valof _ => true
  | .pack _ _ _ => true
  | .unpack _ _ _ _ => true
  | .epush _ => true
  | .eend => true
  | .dpush _ => true
  | .dend => true

/-- Bits of `dat` that carry no item are 0; counts 2, 5, 6 and 7 are never produced (R64, R68). A single item is
one character or value, so at most 8 bits wide (R41). -/
def Response.itemsFit (r : Response) : Bool :=
  (r.n == 0 && r.dat == 0)
  || (r.n == 1 && r.dat.toNat < 2 ^ 8)
  || (r.n == 3 && r.dat.toNat < 2 ^ 24)
  || r.n == 4

/-- "When st is not OK, n = 0 and dat = 0" (R64). -/
def Response.failureIsEmpty (r : Response) : Bool :=
  r.st == .ok || (r.n == 0 && r.dat == 0)

/-- The shapes of response word SPC may produce (R64, R68, U3). -/
def Response.wf (r : Response) : Bool := r.itemsFit && r.failureIsEmpty

end Sys2Proof
end

