-- ==== Sys2Proof/Decode.lean ====
section
/-! DEFINITION. Command words: the decoder, the encoder (R62, R63, R67, R70, R72), the opcode map as a table
(R63), the ignored bits (R65), and the response word (R64, R141). -/

namespace Sys2Proof

/-! ### Fields -/

/-- `op = w[34:32]` (R62). -/
def opField (w : CommandWord) : BitVec 3 := w.extractLsb' 32 3

/-- `arg = w[31:0]` (R62). -/
def argField (w : CommandWord) : BitVec 32 := w.extractLsb' 0 32

/-- The 8-bit field of the argument whose lowest bit is `lo` (R67). -/
def argByte (arg : BitVec 32) (lo : Nat) : Byte := arg.extractLsb' lo 8

/-- The 6-bit field `arg[5:0]` of `SYMOF` (R67). -/
def argValue (arg : BitVec 32) : Value := arg.extractLsb' 0 6

/-- `op ‖ arg` (R62). -/
def commandWord (op : BitVec 3) (arg : BitVec 32) : CommandWord := op ++ arg

/-! ### Decoding -/

/-- The command a word selects: total, since all eight values of `op` are assigned (R63, R68). The three opcode
bits separate leaf from streaming, level or unit, and direction or end, as R63 says. -/
def decode (w : CommandWord) : Instr :=
  let arg := argField w
  match (opField w)[2], (opField w)[1], (opField w)[0] with
  | false, false, false => .symof (argValue arg)
  | false, false, true => .valof (argByte arg 0)
  | false, true, false => .pack (argByte arg 16) (argByte arg 8) (argByte arg 0)
  | false, true, true => .unpack (argByte arg 24) (argByte arg 16) (argByte arg 8) (argByte arg 0)
  | true, false, false => .epush (argByte arg 0)
  | true, false, true => .eend
  | true, true, false => .dpush (argByte arg 0)
  | true, true, true => .dend

/-- Why a number is no command word. -/
inductive DecodeError where
  /-- The number does not fit the 35 lines of `cmd_data` (R61, R62); raised by `decodeNumber`; safe, since the
  port cannot carry such a number. -/
  | widerThan35Bits
  deriving DecidableEq, Repr

/-- The bits of a number as a command word, or the refusal of a number that is none (log 11). -/
def wordOfNumber (w : Nat) : Except DecodeError CommandWord :=
  if w < 2 ^ 35 then .ok (BitVec.ofNat 35 w) else .error .widerThan35Bits

/-- Decoding of any bits at all: a command for a number of at most 35 bits, else a refusal by name. -/
def decodeNumber (w : Nat) : Except DecodeError Instr :=
  match wordOfNumber w with
  | .ok cw => .ok (decode cw)
  | .error e => .error e

/-- The host's question: the command whose word has the bits `w`, numbered as the opcode table numbers them.
There is one format and one length (R62), so the table's bit count decides nothing. -/
def decodeTableWord (_nbits w : Nat) : Option Instr :=
  match decodeNumber w with
  | .ok i => some i
  | .error _ => none

/-! ### Encoding -/

/-- The canonical word of a command: its unused argument bits are 0 (R65, R70). -/
def encode : Instr → CommandWord
  | .symof v => commandWord 0b000 (v.setWidth 32)
  | .valof c => commandWord 0b001 (c.setWidth 32)
  | .pack b1 b2 b3 => commandWord 0b010 (0#8 ++ b1 ++ b2 ++ b3)
  | .unpack s1 s2 s3 s4 => commandWord 0b011 (s1 ++ s2 ++ s3 ++ s4)
  | .epush b => commandWord 0b100 (b.setWidth 32)
  | .eend => commandWord 0b101 0
  | .dpush c => commandWord 0b110 (c.setWidth 32)
  | .dend => commandWord 0b111 0

/-! ### The opcode map as a table -/

/-- A row of R63: a word `w` selects the row when `w & mask = match`. -/
structure OpcodeRow where
  mnemonic : String
  value : CommandWord
  mask : CommandWord
  deriving DecidableEq, Repr

/-- A word selects a row (R63). -/
def rowSelects (row : OpcodeRow) (w : CommandWord) : Bool := w &&& row.mask == row.value

/-- The match and mask columns of R63. -/
def opcodeRows : List OpcodeRow :=
  [ ⟨"SYMOF", 0x000000000, 0x700000000⟩, ⟨"VALOF", 0x100000000, 0x700000000⟩,
    ⟨"PACK", 0x200000000, 0x700000000⟩, ⟨"UNPACK", 0x300000000, 0x700000000⟩,
    ⟨"EPUSH", 0x400000000, 0x700000000⟩, ⟨"EEND", 0x500000000, 0x700000000⟩,
    ⟨"DPUSH", 0x600000000, 0x700000000⟩, ⟨"DEND", 0x700000000, 0x700000000⟩ ]

/-- The bits of a word that its opcode uses: the opcode itself and the operand fields of R67. -/
def usedBits (w : CommandWord) : CommandWord :=
  match (opField w)[2], (opField w)[1], (opField w)[0] with
  | false, false, false => 0x70000003F
  | false, false, true => 0x7000000FF
  | false, true, false => 0x700FFFFFF
  | false, true, true => 0x7FFFFFFFF
  | true, false, false => 0x7000000FF
  | true, false, true => 0x700000000
  | true, true, false => 0x7000000FF
  | true, true, true => 0x700000000

/-- The word with its unused bits cleared: its canonical form (R65, R72). -/
def clearUnused (w : CommandWord) : CommandWord := w &&& usedBits w

/-- A word is canonical when its unused bits are 0 (R65). SPC does not check this. -/
def isCanonical (w : CommandWord) : Bool := clearUnused w == w

/-! ### The response word -/

/-- The status codes of R141. -/
def statusCode : Status → BitVec 2
  | .ok => 0
  | .malformedLength => 1
  | .invalidSymbol => 2

/-- The 37-bit response word `st ‖ n ‖ dat` (R64). -/
def responseWord (r : Response) : ResponseWord := statusCode r.st ++ r.n ++ r.dat

/-- A response read back from its word; the status code 3 is none (R68). -/
def readResponse (w : ResponseWord) : Option Response :=
  let n := w.extractLsb' 32 3
  let dat := w.extractLsb' 0 32
  match w[36], w[35] with
  | false, false => some ⟨.ok, n, dat⟩
  | false, true => some ⟨.malformedLength, n, dat⟩
  | true, false => some ⟨.invalidSymbol, n, dat⟩
  | true, true => none

/-! ### Trace notation (R70) -/

/-- Operands as decimal numerals, comma separated (R70). DESIGN CHOICE: of the forms R70 allows, always this one (log
15). -/
def operandText : List Nat → String
  | [] => ""
  | [x] => toString x
  | x :: xs => toString x ++ ", " ++ operandText xs

/-- The operands of a command in the order of R67. -/
def operands : Instr → List Nat
  | .symof v => [v.toNat]
  | .valof c => [c.toNat]
  | .pack b1 b2 b3 => [b1.toNat, b2.toNat, b3.toNat]
  | .unpack s1 s2 s3 s4 => [s1.toNat, s2.toNat, s3.toNat, s4.toNat]
  | .epush b => [b.toNat]
  | .eend => []
  | .dpush c => [c.toNat]
  | .dend => []

/-- A command in trace notation: its mnemonic and its operands (R70). -/
def traceText (i : Instr) : String :=
  match operands i with
  | [] => i.mnemonic
  | xs => i.mnemonic ++ " " ++ operandText xs

/-- A command word as 9 hexadecimal digits (R70). DESIGN CHOICE: lower case and without `0x`; R70 gives the number of
digits only, and the spec's own printed words have `0x` and either case (log 15). -/
def commandHex (w : CommandWord) : String := w.toHex

/-- A response word as 10 hexadecimal digits (R70). DESIGN CHOICE: lower case and without `0x` (log 15). -/
def responseHex (w : ResponseWord) : String := w.toHex

end Sys2Proof
end

