-- ==== Sys2Proof/Machine/State.lean ====
section
/-! DEFINITION. The state of SPC and of its two ports, and the state after reset. -/

namespace Sys2Proof.Machine

/-- The architectural state `S` of one SPC instance: "the following eight fields, 39 bits in all, and nothing
else" (R21). -/
structure Arch where
  /-- First byte of the unfinished encode group, else 0. -/
  eh0 : BitVec 8
  /-- Second byte of the unfinished encode group, else 0. -/
  eh1 : BitVec 8
  /-- Encode phase: the number of bytes held, 0 to 2; 3 is never held. -/
  ecnt : BitVec 2
  /-- `dh[0]`: value of the first symbol of the unfinished decode group, else 0. -/
  dh0 : BitVec 6
  /-- `dh[1]`: value of the second symbol, else 0. -/
  dh1 : BitVec 6
  /-- `dh[2]`: value of the third symbol, else 0. -/
  dh2 : BitVec 6
  /-- Decode phase: the number of symbols of the unfinished group already taken, 0 to 3. -/
  dcnt : BitVec 2
  /-- A foreign character has been pushed since the last `DEND` or reset (R25). -/
  dbad : Bool
  deriving DecidableEq, Repr

/-- "The model's only events: the accepted commands in order, the taken responses in order, and resets" (R61).
DESIGN CHOICE: the host's freedom is plain data in the state (log 1). -/
inductive HostEvent where
  /-- A command word is accepted on the command port. -/
  | command (w : CommandWord)
  /-- The host accepts a response; the oldest one offered, if any, is taken. -/
  | take
  /-- `rst` is asserted (R160). -/
  | reset
  deriving DecidableEq, Repr

/-- The machine: SPC's own state and its two ports. -/
structure State where
  /-- The architectural state `S` (R21). -/
  spc : Arch
  /-- The command port and `rst`: the host's events still to come, first one first (log 1, log 2). -/
  pending : List HostEvent
  /-- The response port: responses produced and not yet taken, oldest first (R53, log 4). -/
  offered : List Response
  /-- The host's side of the response port: the responses taken since reset, oldest first (R53, R171, log 4). -/
  taken : List Response
  deriving DecidableEq, Repr

/-- Why the machine would stop. There is no constructor: SPC "never refuses a command, never faults outside
the st field, never hangs" (R66, R150), so nobody raises a fault. A failure is a response (R145). -/
inductive Fault where
  deriving DecidableEq, Repr

/-- Why an instruction would have no meaning. -/
inductive Refusal where
  /-- No meaning written yet; raised by an arm of `exec` only. Safe: nothing is claimed of such a command. No arm
  raises it: all eight commands are modelled. -/
  | notModelled (mnemonic : String)
  deriving DecidableEq, Repr

/-- The reset state `S0`: every field zero (R30). -/
def Arch.reset : Arch :=
  { eh0 := 0, eh1 := 0, ecnt := 0, dh0 := 0, dh1 := 0, dh2 := 0, dcnt := 0, dbad := false }

/-- The machine right after reset: SPC in `S0` (R30, R160), no response offered (R160), none taken since (R171),
and no event of the host placed yet (log 2). -/
def State.reset : State :=
  { spc := Arch.reset, pending := [], offered := [], taken := [] }

end Sys2Proof.Machine
end

