-- ==== Sys2Proof/Machine/Flags.lean ====
section
/-! DEFINITION. The one flag of SPC, `dbad` (R25). -/

namespace Sys2Proof.Machine

/-- `dbad` after a `DPUSH` whose character has the value `v` (none when it is foreign): its old value ORed with
this command's own finding; sticky (R25, R110). -/
def dbadAfter (old : Bool) (v : Option Value) : Bool := old || v.isNone

end Sys2Proof.Machine
end

