-- ==== Sys2Proof/Machine/Operands.lean ====
section
/-! DEFINITION. The forms of a response datum (R41, R44, R64) and how the host reads the items back (R102,
R103). The forms of a command's operands are fields of its word and stand in Decode.lean (R67). -/

namespace Sys2Proof

/-- `s1 ‖ s2 ‖ s3 ‖ s4` in bits [31:0] (R44). -/
def quartetDatum (q : Quartet Byte) : BitVec 32 := q.i1 ++ q.i2 ++ q.i3 ++ q.i4

/-- `0x00 ‖ b1 ‖ b2 ‖ b3` (R44, R97). -/
def tripletDatum (t : Triplet) : BitVec 32 := 0#8 ++ t.b1 ++ t.b2 ++ t.b3

/-- `rsp(OK, 0, 0)`: the all-zero word, nothing to deliver (R64). -/
def Response.nothing : Response := ⟨.ok, 0, 0⟩

/-- `rsp(OK, 1, zext_32(c))` for one character (R85). -/
def Response.symbol (c : Byte) : Response := ⟨.ok, 1, c.setWidth 32⟩

/-- `rsp(OK, 1, zext_32(v))` for one value (R86). -/
def Response.value (v : Value) : Response := ⟨.ok, 1, v.setWidth 32⟩

/-- `rsp(OK, 4, s1 ‖ s2 ‖ s3 ‖ s4)` (R95, R104, R106). -/
def Response.quartet (q : Quartet Byte) : Response := ⟨.ok, 4, quartetDatum q⟩

/-- `rsp(OK, 3, 0x00 ‖ b1 ‖ b2 ‖ b3)` (R97, R110). -/
def Response.triplet (t : Triplet) : Response := ⟨.ok, 3, tripletDatum t⟩

/-- `rsp(code, 0, 0)`: how every failure is delivered (R11, R145). -/
def Response.failure (st : Status) : Response := ⟨st, 0, 0⟩

/-- The four characters of a response with `n = 4`, in order; none of any other (R102). -/
def responseChars (r : Response) : List Byte :=
  if r.n = 4 then
    [r.dat.extractLsb' 24 8, r.dat.extractLsb' 16 8, r.dat.extractLsb' 8 8, r.dat.extractLsb' 0 8]
  else []

/-- The three bytes of a response with `n = 3`, in order; none of any other (R103). -/
def responseBytes (r : Response) : List Byte :=
  if r.n = 3 then
    [r.dat.extractLsb' 16 8, r.dat.extractLsb' 8 8, r.dat.extractLsb' 0 8]
  else []

end Sys2Proof
end

