-- ==== Sys2Proof/Machine/Ops.lean ====
section
/-! DEFINITION. The named operations over SPC's state: the hold registers of the two units, completing a command,
delivering a failure, and what the ports do. -/

namespace Sys2Proof.Machine

/-! ### ENC (R104, R106) -/

/-- Phase 0 of `EPUSH`: hold the first byte. -/
def Arch.holdFirst (a : Arch) (b : Byte) : Arch := { a with eh0 := b, ecnt := 1 }

/-- Phase 1 of `EPUSH`: hold the second byte. -/
def Arch.holdSecond (a : Arch) (b : Byte) : Arch := { a with eh1 := b, ecnt := 2 }

/-- The three ENC fields to 0: the group is complete or the transaction ended. -/
def Arch.clearEnc (a : Arch) : Arch := { a with eh0 := 0, eh1 := 0, ecnt := 0 }

/-! ### DEC (R110, R112) -/

/-- `S.dh[p] <- v` for the phase `p`; there is no `dh[3]`, and no rule writes one. -/
def Arch.setDh (a : Arch) (p : BitVec 2) (v : Value) : Arch :=
  match p.toNat with
  | 0 => { a with dh0 := v }
  | 1 => { a with dh1 := v }
  | 2 => { a with dh2 := v }
  | _ => a

/-- Phases 0, 1 and 2 of `DPUSH`: hold the value of an alphabet character, hold nothing for a foreign one, and
count the character either way. -/
def Arch.holdSymbol (a : Arch) (v : Option Value) (bad : Bool) : Arch :=
  let held := match v with
    | some x => a.setDh a.dcnt x
    | none => a
  { held with dcnt := a.dcnt + 1, dbad := bad }

/-- Phase 3 of `DPUSH`: the group is complete; `dbad` keeps its new value. -/
def Arch.clearGroup (a : Arch) (bad : Bool) : Arch :=
  { a with dh0 := 0, dh1 := 0, dh2 := 0, dcnt := 0, dbad := bad }

/-- The five DEC fields to 0: the transaction ended. -/
def Arch.clearDec (a : Arch) : Arch :=
  { a with dh0 := 0, dh1 := 0, dh2 := 0, dcnt := 0, dbad := false }

/-! ### Completing a command (R47, R53, R66) -/

/-- A command that succeeds: what its rule makes of the state, and its response. A rule is the spec's
`step(S, w)` for one command: from the state `S` to the state and the response (R66). -/
def Arch.respond (a : Arch) (r : Response) : Arch × Response := (a, r)

/-- Delivering a failure, SPC's whole exception mechanism: the response `rsp(code, 0, 0)` "plus exactly the state
change the rule states"; no control transfer, no saved state, no mode change, and so no return (R11, R145, R154). -/
def Arch.raise (a : Arch) (st : Status) : Arch × Response := (a, Response.failure st)

/-- One command completes: its state writes take effect together (R11, R47), and its one response joins the response
port behind those of earlier commands (R53). -/
def State.complete (s : State) (result : Arch × Response) : Host.Outcome State Fault Refusal :=
  .next { s with spc := result.1, offered := s.offered ++ [result.2] }

/-! ### Ports (R61, R160) -/

/-- `rsp_valid`: a response is offered (R61). -/
def State.rspValid (s : State) : Bool := !s.offered.isEmpty

/-- `rsp_data`: the word of the oldest response not yet taken (R53, R61). -/
def State.rspData (s : State) : Option ResponseWord := s.offered.head?.map responseWord

/-- The first pending event has happened. -/
def State.dropEvent (s : State) : State := { s with pending := s.pending.tail }

/-- The host accepts a response: the oldest one offered is taken; nothing transfers when none is offered, since
`rsp_valid` is then 0 (R61, log 5). -/
def State.takeResponse (s : State) : State :=
  match s.offered with
  | [] => s
  | r :: rest => { s with offered := rest, taken := s.taken ++ [r] }

/-- The reset event: SPC goes to `S0`, no response is offered, and the host counts responses anew; a command
whose response had not been taken gets none (R160, R171, U6, log 6). What the host does afterwards stays. -/
def State.resetEvent (s : State) : State := { State.reset with pending := s.pending }

end Sys2Proof.Machine
end

