-- ==== Sys2Proof/Machine/Alphabet.lean ====
section
/-! DEFINITION. The alphabet family: `symbol_of`, `value_of`, `SYMOF` and `VALOF` (40_alphabet.md). -/

namespace Sys2Proof

/-- The table of R81, value by value: the code of the character of each value 0 to 63, read from its rows and
independent of the closed forms below. -/
def alphabetTable : List Byte :=
  [0x30, 0x31, 0x32, 0x33, 0x34, 0x35, 0x36, 0x37,
   0x38, 0x39, 0x41, 0x42, 0x43, 0x44, 0x45, 0x46] ++
  [0x47, 0x48, 0x49, 0x4A, 0x4B, 0x4C, 0x4D, 0x4E,
   0x4F, 0x50, 0x51, 0x52, 0x53, 0x54, 0x55, 0x56] ++
  [0x57, 0x58, 0x59, 0x5A, 0x61, 0x62, 0x63, 0x64,
   0x65, 0x66, 0x67, 0x68, 0x69, 0x6A, 0x6B, 0x6C] ++
  [0x6D, 0x6E, 0x6F, 0x70, 0x71, 0x72, 0x73, 0x74,
   0x75, 0x76, 0x77, 0x78, 0x79, 0x7A, 0x2D, 0x5F]

/-- `symbol_of(v)`: the closed form of R82 over the codes of R81. -/
def symbolOf (v : Value) : Byte :=
  if v.toNat ≤ 9 then BitVec.ofNat 8 (0x30 + v.toNat)
  else if v.toNat ≤ 35 then BitVec.ofNat 8 (0x41 + (v.toNat - 10))
  else if v.toNat ≤ 61 then BitVec.ofNat 8 (0x61 + (v.toNat - 36))
  else if v.toNat = 62 then 0x2D
  else 0x5F

/-- `value_of(c)`: the closed form of R83; `none` is the outcome `foreign`, never a value and never 0. -/
def valueOf (c : Byte) : Option Value :=
  if 0x30 ≤ c.toNat ∧ c.toNat ≤ 0x39 then some (BitVec.ofNat 6 (c.toNat - 0x30))
  else if 0x41 ≤ c.toNat ∧ c.toNat ≤ 0x5A then some (BitVec.ofNat 6 (c.toNat - 0x41 + 10))
  else if 0x61 ≤ c.toNat ∧ c.toNat ≤ 0x7A then some (BitVec.ofNat 6 (c.toNat - 0x61 + 36))
  else if c.toNat = 0x2D then some 62
  else if c.toNat = 0x5F then some 63
  else none

/-- A foreign character: "an 8-bit code that is not one of the 64 alphabet codes" (R14, R83). -/
def isForeign (c : Byte) : Bool := (valueOf c).isNone

namespace Machine

/-- The rule R85: cannot fail; no state read or written. -/
def symofRule (v : Value) (a : Arch) : Arch × Response := a.respond (Response.symbol (symbolOf v))

/-- The rule R86: `InvalidSymbol` exactly on a foreign code; no state read or written. -/
def valofRule (c : Byte) (a : Arch) : Arch × Response :=
  match valueOf c with
  | none => a.raise .invalidSymbol
  | some v => a.respond (Response.value v)

/-- `SYMOF v` (R85). -/
def execSymof (v : Value) (s : State) : Host.Outcome State Fault Refusal := s.complete (symofRule v s.spc)

/-- `VALOF c` (R86). -/
def execValof (c : Byte) (s : State) : Host.Outcome State Fault Refusal := s.complete (valofRule c s.spc)

end Machine
end Sys2Proof
end

