-- ==== Sys2Proof/Machine/Triplet.lean ====
section
/-! DEFINITION. The triplet family: Pack, Unpack, `PACK` and `UNPACK` (41_triplet.md). The equations of R90 and
R91 are computed over the naturals, where no shift loses a bit, and narrowed at the end (R9). -/

namespace Sys2Proof

/-- `PackV(b1, b2, b3)`: the four values `c1` to `c4` of R90. -/
def packV (b1 b2 b3 : Byte) : Quartet Value :=
  let c1 := b1.toNat >>> 2
  let c2 := ((b1.toNat &&& 0b11) <<< 4) ||| (b2.toNat >>> 4)
  let c3 := ((b2.toNat &&& 0b1111) <<< 2) ||| (b3.toNat >>> 6)
  let c4 := b3.toNat &&& 0b111111
  ⟨BitVec.ofNat 6 (c1 &&& 0b111111), BitVec.ofNat 6 (c2 &&& 0b111111),
   BitVec.ofNat 6 (c3 &&& 0b111111), BitVec.ofNat 6 (c4 &&& 0b111111)⟩

/-- `Pack = map symbol_of ∘ PackV` (R90). -/
def pack (b1 b2 b3 : Byte) : Quartet Byte := (packV b1 b2 b3).map symbolOf

/-- `UnpackV(c1, c2, c3, c4)`: the last three lines of R91. -/
def unpackV (c1 c2 c3 c4 : Value) : Triplet :=
  let b1 := (c1.toNat <<< 2) ||| ((c2.toNat >>> 4) &&& 0b11)
  let b2 := ((c2.toNat <<< 4) &&& 0b11110000) ||| ((c3.toNat >>> 2) &&& 0b1111)
  let b3 := ((c3.toNat <<< 6) &&& 0b11000000) ||| (c4.toNat &&& 0b111111)
  ⟨BitVec.ofNat 8 b1, BitVec.ofNat 8 b2, BitVec.ofNat 8 b3⟩

/-- `Unpack([s1, s2, s3, s4])`: defined when all four are alphabet characters (R91). -/
def unpack (s1 s2 s3 s4 : Byte) : Option Triplet :=
  match valueOf s1, valueOf s2, valueOf s3, valueOf s4 with
  | some c1, some c2, some c3, some c4 => some (unpackV c1 c2 c3 c4)
  | _, _, _, _ => none

namespace Machine

/-- The rule R95: cannot fail; no state read or written. -/
def packRule (b1 b2 b3 : Byte) (a : Arch) : Arch × Response := a.respond (Response.quartet (pack b1 b2 b3))

/-- The rule R97: `InvalidSymbol` exactly when at least one code is foreign, with no partial result; no state read
or written. -/
def unpackRule (s1 s2 s3 s4 : Byte) (a : Arch) : Arch × Response :=
  match unpack s1 s2 s3 s4 with
  | none => a.raise .invalidSymbol
  | some t => a.respond (Response.triplet t)

/-- `PACK b1, b2, b3` (R95). -/
def execPack (b1 b2 b3 : Byte) (s : State) : Host.Outcome State Fault Refusal :=
  s.complete (packRule b1 b2 b3 s.spc)

/-- `UNPACK s1, s2, s3, s4` (R97). -/
def execUnpack (s1 s2 s3 s4 : Byte) (s : State) : Host.Outcome State Fault Refusal :=
  s.complete (unpackRule s1 s2 s3 s4 s.spc)

end Machine
end Sys2Proof
end

