-- ==== Sys2Proof/Machine/Decoder.lean ====
section
/-! DEFINITION. The unit DEC: `DPUSH` and `DEND` (R110 to R112). -/

namespace Sys2Proof.Machine

/-- The response of a `DPUSH` that completes a group: the triplet when every character of the transaction was
good, else nothing, the triplet suppressed (R110). -/
def groupResponse (a : Arch) (v : Option Value) : Response :=
  match a.dbad, v with
  | false, some x => Response.triplet (unpackV a.dh0 a.dh1 a.dh2 x)
  | _, _ => Response.nothing

/-- The rule R110: its `st` is always `OK`; a foreign character is latched in `dbad` for `DEND` (R145). -/
def dpushRule (c : Byte) (a : Arch) : Arch × Response :=
  let v := valueOf c
  let bad := dbadAfter a.dbad v
  if a.dcnt = 3 then (a.clearGroup bad).respond (groupResponse a v)
  else (a.holdSymbol v bad).respond Response.nothing

/-- The rule R112: the verdict, length first (R144); DEC is cleared whatever it is. -/
def dendRule (a : Arch) : Arch × Response :=
  if a.dcnt ≠ 0 then a.clearDec.raise .malformedLength
  else if a.dbad then a.clearDec.raise .invalidSymbol
  else a.clearDec.respond Response.nothing

/-- `DPUSH c` (R110). -/
def execDpush (c : Byte) (s : State) : Host.Outcome State Fault Refusal := s.complete (dpushRule c s.spc)

/-- `DEND` (R112). -/
def execDend (s : State) : Host.Outcome State Fault Refusal := s.complete (dendRule s.spc)

end Sys2Proof.Machine
end

