-- ==== Sys2Proof/Machine/Encoder.lean ====
section
/-! DEFINITION. The unit ENC: `EPUSH` and `EEND` (R104 to R106). -/

namespace Sys2Proof.Machine

/-- The rule R104. DESIGN CHOICE: `ecnt = 3`, which no run reaches (R23), acts as phase 0, the treatment R104 itself
names (log 7). -/
def epushRule (b : Byte) (a : Arch) : Arch × Response :=
  match a.ecnt.toNat with
  | 1 => (a.holdSecond b).respond Response.nothing
  | 2 => a.clearEnc.respond (Response.quartet (pack a.eh0 a.eh1 b))
  | _ => (a.holdFirst b).respond Response.nothing

/-- The rule R106: the missing bytes of a short final group are zeros, and the response does not say so. DEDUCED:
phase 0 writes nothing, as its arm says (log 8). DESIGN CHOICE: `ecnt = 3` acts as phase 0 here too (log 7). -/
def eendRule (a : Arch) : Arch × Response :=
  match a.ecnt.toNat with
  | 1 => a.clearEnc.respond (Response.quartet (pack a.eh0 0 0))
  | 2 => a.clearEnc.respond (Response.quartet (pack a.eh0 a.eh1 0))
  | _ => a.respond Response.nothing

/-- `EPUSH b` (R104). -/
def execEpush (b : Byte) (s : State) : Host.Outcome State Fault Refusal := s.complete (epushRule b s.spc)

/-- `EEND` (R106). -/
def execEend (s : State) : Host.Outcome State Fault Refusal := s.complete (eendRule s.spc)

end Sys2Proof.Machine
end

