-- ==== Sys2Proof/Machine/Dispatch.lean ====
section
/-! DEFINITION. One arm per command of R63: "selects the one rule named in rule R63" (R66). -/

namespace Sys2Proof.Machine

def exec (i : Instr) (s : State) : Host.Outcome State Fault Refusal :=
  match i with
  | .symof v => Sys2Proof.Machine.execSymof v s
  | .valof c => Sys2Proof.Machine.execValof c s
  | .pack b1 b2 b3 => Sys2Proof.Machine.execPack b1 b2 b3 s
  | .unpack s1 s2 s3 s4 => Sys2Proof.Machine.execUnpack s1 s2 s3 s4 s
  | .epush b => Sys2Proof.Machine.execEpush b s
  | .eend => Sys2Proof.Machine.execEend s
  | .dpush c => Sys2Proof.Machine.execDpush c s
  | .dend => Sys2Proof.Machine.execDend s

end Sys2Proof.Machine
end

