-- ==== Sys2Proof/Machine/Step.lean ====
section
/-! DEFINITION. One step: the next event of the host happens (R15, R61, R66, R160). -/

namespace Sys2Proof.Machine

/-- One step of the machine. A command is decoded and executed atomically (R66); a response is taken; a reset
replaces the state by `S0` (R160); with nothing pending, SPC "simply holds its state" (R153, log 3). -/
def step (s : State) : Host.Outcome State Fault Refusal :=
  match s.pending with
  | [] => .next s
  | .command w :: _ => exec (decode w) s.dropEvent
  | .take :: _ => .next s.dropEvent.takeResponse
  | .reset :: _ => .next s.dropEvent.resetEvent

/-- `s` with the word whose bits are `w` as the command the host presents next; SPC fetches nothing (R22, R45),
so nothing else is set (log 2). The format has one length (R62). -/
def State.withFetchWord (s : State) (_nbits w : Nat) : State :=
  { s with pending := .command (BitVec.ofNat 35 w) :: s.pending }

end Sys2Proof.Machine
end

