-- ==== Sys2Proof/Config.lean ====
section
/-! DEFINITION. What is fixed for every run, and the one free value. SPC itself leaves no value open: its
constants are fixed by R6 and stand in the rules that use them, and its only open parameter, `LAT`, is time
and outside the model (R7, R175). The free value below belongs to host software. -/

namespace Sys2Proof

/-- What `strip_prefix("~h")` gives for a string without the marker. FREE VALUE: the spec does not say (R134,
N20), and nothing can be proved about it. PRESUMED nothing; safe (log 13). -/
opaque Config.stripPrefixAbsent : List Byte → CodecResult

end Sys2Proof
end

