-- ==== Sys2Proof/Machine/Buffer.lean ====
section
/-! DEFINITION. The buffer codec as the document's pure functions (R100, R101), transactions and their results
(R71, R102, R103), and what a history of events leaves in the hold registers (R22 to R25). -/

namespace Sys2Proof

/-! ### The two functions -/

/-- `encode_buffer` (R100): 3 bytes at a time, the last group zero-padded. -/
def encodeBuffer : List Byte → List Byte
  | [] => []
  | [b1] => (pack b1 0 0).toList
  | [b1, b2] => (pack b1 b2 0).toList
  | b1 :: b2 :: b3 :: rest => (pack b1 b2 b3).toList ++ encodeBuffer rest

/-- The triplets of a string's groups of four, concatenated in order (R101). `decodeBuffer` uses it only on strings
of alphabet characters in whole groups, so what it gives for any other plays no part. -/
def decodeGroups : List Byte → List Byte
  | s1 :: s2 :: s3 :: s4 :: rest =>
    (match unpack s1 s2 s3 s4 with
      | some t => t.toList
      | none => []) ++ decodeGroups rest
  | _ => []

/-- `decode_buffer` (R101): the length test comes first, then the foreign characters. -/
def decodeBuffer (s : List Byte) : CodecResult :=
  if s.length % 4 ≠ 0 then .err .malformedLength
  else if s.any isForeign then .err .invalidSymbol
  else .ok (decodeGroups s)

/-- `zeros(p)`: `p` bytes of value 0 (R122). -/
def zeros (p : Nat) : List Byte := List.replicate p 0

/-- The number of bytes fabricated for a buffer (R122). -/
def padCount (x : List Byte) : Nat := (3 - x.length % 3) % 3

/-! ### Transactions -/

/-- `ENCODE [x_0, ..., x_{k-1}]` (R71): an encode transaction (R102). -/
def encodeTransaction (x : List Byte) : List Instr := x.map .epush ++ [.eend]

/-- `DECODE "y_0 ... y_{k-1}"` (R71): a decode transaction (R103). -/
def decodeTransaction (y : List Byte) : List Instr := y.map .dpush ++ [.dend]

/-- The result of an encode transaction: the characters of its responses with `n = 4`, in order (R102). -/
def encodeResult (responses : List Response) : List Byte := responses.flatMap responseChars

/-- The result of a decode transaction from the responses of its pushes and the response of its `DEND`: the verdict
is that one's `st` and nothing else (R103). -/
def decodeResult (pushes : List Response) (verdict : Response) : CodecResult :=
  match verdict.st with
  | .malformedLength => .err .malformedLength
  | .invalidSymbol => .err .invalidSymbol
  | .ok => .ok (pushes.flatMap responseBytes)

/-- The group (of four consecutive positions) of the first foreign character, none when there is none: the `g` of
R119. -/
def firstForeignGroup (y : List Byte) : Option Nat := (y.findIdx? isForeign).map (· / 4)

namespace Machine

/-! ### Histories (R22, R25) -/

/-- The bytes pushed since the last `EEND` or reset, after one more event. -/
def bytesAfter (pushed : List Byte) : HostEvent → List Byte
  | .command w =>
    match decode w with
    | .epush b => pushed ++ [b]
    | .eend => []
    | _ => pushed
  | .take => pushed
  | .reset => []

/-- The characters pushed since the last `DEND` or reset, after one more event. -/
def charsAfter (pushed : List Byte) : HostEvent → List Byte
  | .command w =>
    match decode w with
    | .dpush c => pushed ++ [c]
    | .dend => []
    | _ => pushed
  | .take => pushed
  | .reset => []

/-- The bytes pushed since the last `EEND` or reset in a history that begins at reset. -/
def openBytes (history : List HostEvent) : List Byte := history.foldl bytesAfter []

/-- The characters pushed since the last `DEND` or reset in a history that begins at reset. -/
def openChars (history : List HostEvent) : List Byte := history.foldl charsAfter []

/-- The value held for the `i`-th character of an unfinished group: 0 when there is none or it is foreign (R24). -/
def heldValue (group : List Byte) (i : Nat) : Value := (group[i]?.bind valueOf).getD 0

/-- The architectural state that the bytes and characters pushed since the last end or reset determine (R22 to
R25): what is left of the unfinished groups, and whether a foreign character came. -/
def archOfHistory (x y : List Byte) : Arch :=
  let held := x.drop (3 * (x.length / 3))
  let group := y.drop (4 * (y.length / 4))
  { eh0 := held.getD 0 0
    eh1 := held.getD 1 0
    ecnt := BitVec.ofNat 2 (x.length % 3)
    dh0 := heldValue group 0
    dh1 := heldValue group 1
    dh2 := heldValue group 2
    dcnt := BitVec.ofNat 2 (y.length % 4)
    dbad := y.any isForeign }

end Machine
end Sys2Proof
end

