-- ==== Sys2Proof/Machine/HostBackend.lean ====
section
/-! DEFINITION. The backend adapters: host software around the codec, no operation of SPC (R5, R130). Their
contract is written down because a round trip depends on it. A text is its list of UTF-8 bytes (log 14). -/

namespace Sys2Proof

/-! ### The external hex codec (R130, R133, R134, U10) -/

/-- A character of `0-9a-f` (R133). -/
def isHexDigit (c : Byte) : Bool :=
  (0x30 ≤ c.toNat && c.toNat ≤ 0x39) || (0x61 ≤ c.toNat && c.toNat ≤ 0x66)

/-- The external hex codec, "opaque to this spec" (R130): two functions with the contract of R133 and R134 and nothing
more (U10, log 12). -/
structure HexCodec where
  hexEncode : List Byte → List Byte
  /-- None when the codec rejects its input. -/
  hexDecode : List Byte → Option (List Byte)
  /-- Two characters per byte (R133). -/
  length_hexEncode : ∀ text, (hexEncode text).length = 2 * text.length
  /-- The output "is restricted to the ASCII set `0-9a-f`" (R133). -/
  isHexDigit_hexEncode : ∀ text, ∀ c ∈ hexEncode text, isHexDigit c = true
  /-- Decoding gives the bytes back. DEDUCED: R130 calls the pair an encoder and a decoder, and R135 uses this
  (log 12). -/
  hexDecode_hexEncode : ∀ text, hexDecode (hexEncode text) = some text
  /-- An "odd-length hex string" is rejected (R134). -/
  hexDecode_odd : ∀ y, y.length % 2 = 1 → hexDecode y = none
  /-- "A character outside `0-9a-f`" is rejected (R134). -/
  hexDecode_nonDigit : ∀ y, (∃ c ∈ y, isHexDigit c = false) → hexDecode y = none

/-! ### Padding removal and the marker (R132 to R134) -/

/-- `trim_trailing_zero_bytes` (R132): all trailing bytes of value 0 are removed. -/
def trimTrailingZeroBytes (z : List Byte) : List Byte := (z.reverse.dropWhile (· == 0)).reverse

/-- The marker `~h`: 0x7E 0x68 (R133). -/
def hexMarker : List Byte := [0x7E, 0x68]

/-- `strip_prefix("~h")` (R134); without the marker a free value, since the spec does not say (N20, log 13). -/
def stripPrefix (y : List Byte) : CodecResult :=
  if y.take 2 = hexMarker then .ok (y.drop 2) else Config.stripPrefixAbsent y

/-! ### The hex backend, over any hex codec (R133, R134) -/

/-- Hex backend, encode: `prefix("~h") ∘ encode_buffer ∘ hex_encode` (R133). -/
def HexCodec.encode (h : HexCodec) (text : List Byte) : List Byte := hexMarker ++ encodeBuffer (h.hexEncode text)

/-- Hex backend, decode: `hex_decode ∘ trim_trailing_zero_bytes ∘ decode_buffer ∘ strip_prefix("~h")` (R134), with
its failures (R134, R137). The trim is applied to the byte buffer, before any conversion. -/
def HexCodec.decode (h : HexCodec) (y : List Byte) : CodecResult :=
  (stripPrefix y).andThen fun s =>
  (decodeBuffer s).andThen fun z =>
  match h.hexDecode (trimTrailingZeroBytes z) with
  | none => .err .upstreamCodecFailure
  | some text => .ok text

/-! ### One codec that keeps the contract

The "well-known transform" (R130) with the high digit of a byte first, for the spec's own vector. The backend above
does not use it. -/

/-- A lowercase ASCII hex digit, over `0-9a-f` (R133). -/
def hexDigit (d : BitVec 4) : Byte :=
  if d.toNat < 10 then BitVec.ofNat 8 (0x30 + d.toNat) else BitVec.ofNat 8 (0x61 + (d.toNat - 10))

/-- The digit a character stands for; none outside `0-9a-f` (R134). -/
def hexValue (c : Byte) : Option (BitVec 4) :=
  if 0x30 ≤ c.toNat ∧ c.toNat ≤ 0x39 then some (BitVec.ofNat 4 (c.toNat - 0x30))
  else if 0x61 ≤ c.toNat ∧ c.toNat ≤ 0x66 then some (BitVec.ofNat 4 (c.toNat - 0x61 + 10))
  else none

/-- Two characters per byte (R133). DEDUCED: the high digit comes first, as vector S1 of 95_test_vectors.md shows
(log 12). -/
def highFirstHex (text : List Byte) : List Byte :=
  text.flatMap fun b => [hexDigit (b.extractLsb' 4 4), hexDigit (b.extractLsb' 0 4)]

/-- Its inverse: rejects an odd length and a character outside `0-9a-f` (R134). -/
def highFirstBytes : List Byte → Option (List Byte)
  | [] => some []
  | [_] => none
  | h :: l :: rest =>
    match hexValue h, hexValue l with
    | some dh, some dl => (highFirstBytes rest).map ((dh ++ dl) :: ·)
    | _, _ => none

/-! ### UTF-8 (R131, R133, R137)

PRESUMED: the spec names UTF-8 and does not define it; the definition is the Unicode Standard's (log 17). -/

/-- A text: its Unicode scalar values, in order. -/
abbrev Text := List Char

/-- A byte of a UTF-8 sequence after the first: `0x80` and six bits of the scalar value. -/
def utf8Tail (n : Nat) : Byte := BitVec.ofNat 8 (0x80 + n % 64)

/-- The UTF-8 bytes of one scalar value: the shortest of the four forms. -/
def utf8OfChar (c : Char) : List Byte :=
  let n := c.toNat
  if n < 0x80 then [BitVec.ofNat 8 n]
  else if n < 0x800 then [BitVec.ofNat 8 (0xC0 + n / 64), utf8Tail n]
  else if n < 0x10000 then [BitVec.ofNat 8 (0xE0 + n / 4096), utf8Tail (n / 64), utf8Tail n]
  else [BitVec.ofNat 8 (0xF0 + n / 262144), utf8Tail (n / 4096), utf8Tail (n / 64), utf8Tail n]

/-- "The UTF-8 bytes of the text" (R131, R133). -/
def utf8Bytes (t : Text) : List Byte := t.flatMap utf8OfChar

/-- The bytes that may follow a first byte of a UTF-8 sequence, each as its least and greatest value; none when no
sequence begins with `a`. The bounds other than 0x80 and 0xBF shut out longer forms than needed, the surrogates, and
values above 0x10FFFF. -/
def utf8Due (a : Byte) : Option (List (Nat × Nat)) :=
  let n := a.toNat
  if n < 0x80 then some []
  else if n < 0xC2 then none
  else if n < 0xE0 then some [(0x80, 0xBF)]
  else if n = 0xE0 then some [(0xA0, 0xBF), (0x80, 0xBF)]
  else if n = 0xED then some [(0x80, 0x9F), (0x80, 0xBF)]
  else if n < 0xF0 then some [(0x80, 0xBF), (0x80, 0xBF)]
  else if n = 0xF0 then some [(0x90, 0xBF), (0x80, 0xBF), (0x80, 0xBF)]
  else if n < 0xF4 then some [(0x80, 0xBF), (0x80, 0xBF), (0x80, 0xBF)]
  else if n = 0xF4 then some [(0x80, 0x8F), (0x80, 0xBF), (0x80, 0xBF)]
  else none

/-- Whether the bytes first complete the sequence under way and then are UTF-8. -/
def validUtf8From : List (Nat × Nat) → List Byte → Bool
  | [], [] => true
  | _ :: _, [] => false
  | [], a :: rest =>
    match utf8Due a with
    | some due => validUtf8From due rest
    | none => false
  | (least, greatest) :: due, a :: rest => least ≤ a.toNat && a.toNat ≤ greatest && validUtf8From due rest

/-- The bytes "are valid UTF-8 text" (R131). -/
def validUtf8 (bytes : List Byte) : Bool := validUtf8From [] bytes

/-! ### The deflate backend (R131) -/

/-- The external DEFLATE codec, opaque but for the property R131 names: the compressor's output ends itself, so up to
two zero bytes after it are absorbed (U10, log 14). -/
structure DeflateCodec where
  compress : List Byte → List Byte
  decompress : List Byte → Option (List Byte)
  absorbsPadding : ∀ u p, p ≤ 2 → decompress (compress u ++ zeros p) = some u

/-- Deflate backend, encode: `encode_buffer ∘ deflate_compress` (R131). -/
def DeflateCodec.encode (d : DeflateCodec) (text : List Byte) : List Byte := encodeBuffer (d.compress text)

/-- Deflate backend, decode: `deflate_decompress ∘ decode_buffer`, with its failures, the check of UTF-8 being the
"final step" (R131, R137). -/
def DeflateCodec.decode (d : DeflateCodec) (y : List Byte) : CodecResult :=
  (decodeBuffer y).andThen fun z =>
  match d.decompress z with
  | none => .err .upstreamCodecFailure
  | some text => if validUtf8 text then .ok text else .err .invalidUtf8

end Sys2Proof
end

