-- ==== Sys2Proof/Safety.lean ====
section
/-! DEFINITION. The words claims are stated in: the invariants of the state, idle units, runs, and what a host that
presents a list of commands does. -/

namespace Sys2Proof.Machine

/-! ### Invariants -/

/-- The ENC invariant of R23. -/
abbrev Arch.encWf (a : Arch) : Prop :=
  a.ecnt ≠ 3 ∧ (a.ecnt ≠ 2 → a.eh1 = 0) ∧ (a.ecnt = 0 → a.eh0 = 0)

/-- The DEC invariant of R24: `dh[i] = 0` for every `i ≥ dcnt`. -/
abbrev Arch.decWf (a : Arch) : Prop :=
  (a.dcnt.toNat ≤ 0 → a.dh0 = 0) ∧ (a.dcnt.toNat ≤ 1 → a.dh1 = 0) ∧ (a.dcnt.toNat ≤ 2 → a.dh2 = 0)

/-- What every reachable state meets: both units' invariants, and every response on the port or already taken has
one of the shapes of R64. -/
abbrev State.Inv (s : State) : Prop :=
  s.spc.encWf ∧ s.spc.decWf ∧ ∀ r ∈ s.taken ++ s.offered, r.wf = true

/-! ### Units -/

/-- The fields of ENC (R21). -/
def Arch.encPart (a : Arch) : Byte × Byte × BitVec 2 := (a.eh0, a.eh1, a.ecnt)

/-- The fields of DEC (R21). -/
def Arch.decPart (a : Arch) : (Value × Value × Value) × BitVec 2 × Bool := ((a.dh0, a.dh1, a.dh2), a.dcnt, a.dbad)

/-- ENC's state equals its reset state (R14, R31). -/
abbrev Arch.encIdle (a : Arch) : Prop := a.encPart = (0, 0, 0)

/-- DEC's state equals its reset state (R14, R31). -/
abbrev Arch.decIdle (a : Arch) : Prop := a.decPart = ((0, 0, 0), 0, false)

/-! ### Runs (R66) -/

/-- `k` steps, stopping at a fault or refusal. The host's `Host.Core.run` of `core` is the same function
(`Sys2Proof.Laws.core_run`). -/
def run : Nat → State → Host.Outcome State Fault Refusal
  | 0, s => .next s
  | k + 1, s =>
    match step s with
    | .next t => run k t
    | .fault r => .fault r
    | .refused r => .refused r

/-- `s` where the host is about to present these command words and to do nothing else. -/
def State.presenting (s : State) (words : List CommandWord) : State :=
  { s with pending := words.map .command }

/-- `s` where the host is about to present this program (R70), and to do nothing else. -/
def State.running (s : State) (program : List Instr) : State := s.presenting (program.map encode)

/-- An event that is a command. -/
def HostEvent.isCommand : HostEvent → Bool
  | .command _ => true
  | .take => false
  | .reset => false

/-- An event that is a reset. -/
def HostEvent.isReset : HostEvent → Bool
  | .command _ => false
  | .take => false
  | .reset => true

/-- The commands of one family among the words of a run. -/
def familyWords (f : Family) (words : List CommandWord) : List CommandWord :=
  words.filter fun w => (decode w).family == f

/-- The responses to the commands of one family, when `responses` answers `words` in order (R53). -/
def familyResponses (f : Family) (words : List CommandWord) (responses : List Response) : List Response :=
  ((words.zip responses).filter fun p => (decode p.1).family == f).map Prod.snd

end Sys2Proof.Machine
end

