-- ==== Sys2Proof/Certificates/Slice0/Obligations.lean ====
section
/-! DEFINITION. The statements for the provers, one for each entry of OBLIGATIONS.json. -/

open Sys2Proof Sys2Proof.Machine

/-! ### Words -/

/-- 30_encoding.md section 7, the spec's own inference numbered R72: decoding loses only the unused bits, and
decoding what a command is written as gives the command back. -/
def Obligations.DecodeAndEncodeAgree : Prop :=
  (∀ i : Instr, i.wf = true → decode (encode i) = i) ∧
  (∀ w : CommandWord, encode (decode w) = clearUnused w)

/-- R65: "two command words that differ only in bits unused for their opcode have the same effect and the same
response". -/
def Obligations.UnusedBitsAreIgnored : Prop :=
  ∀ (s : State) (rest : List HostEvent) (w w' : CommandWord),
    w &&& usedBits w = w' &&& usedBits w →
    step { s with pending := .command w :: rest } = step { s with pending := .command w' :: rest }

/-- R63: every word selects exactly one row of the opcode map, the row of the command it decodes to; bit 34 separates
leaf from streaming commands, bit 33 the unit or level. -/
def Obligations.EveryWordSelectsOneRow : Prop :=
  ∀ w : CommandWord,
    (opcodeRows.filter (rowSelects · w)).map OpcodeRow.mnemonic = [(decode w).mnemonic] ∧
    (decode w).isLeaf = !w[34] ∧
    (decode w).family =
      match w[34], w[33] with
      | false, false => .alphabet
      | false, true => .triplet
      | true, false => .enc
      | true, true => .dec

/-- Words written out in 95_test_vectors.md (V9, V10, V17, V20, V23, P1, P2), one or two for each family, decode to the
commands they stand for. -/
def Obligations.WordsOfTheSpecDecode : Prop :=
  decode 0x0FFFFFFCD = .symof 13 ∧
  decode 0x10000005A = .valof 0x5A ∧
  decode 0x200343132 = .pack 0x34 0x31 0x32 ∧
  decode 0x2AB343132 = .pack 0x34 0x31 0x32 ∧
  decode 0x34433346F = .unpack 0x44 0x33 0x34 0x6F ∧
  decode 0x400000048 = .epush 0x48 ∧
  decode 0x500000000 = .eend ∧
  decode 0x600000049 = .dpush 0x49 ∧
  decode 0x700000000 = .dend

/-- 30_encoding.md section 4 and 60_exceptions.md section 1: the three fields of a response word stand where the spec
puts them, the status codes are 0, 1 and 2, and a word reads back as a response unless its status code is 3. -/
def Obligations.ResponseWordLayout : Prop :=
  (∀ r : Response,
    (responseWord r).extractLsb' 35 2 = statusCode r.st ∧
    (responseWord r).extractLsb' 32 3 = r.n ∧
    (responseWord r).extractLsb' 0 32 = r.dat ∧
    readResponse (responseWord r) = some r) ∧
  (∀ w : ResponseWord, readResponse w = none ↔ w.extractLsb' 35 2 = 3) ∧
  (∀ (w : ResponseWord) (r : Response), readResponse w = some r → responseWord r = w) ∧
  (statusCode .ok = 0 ∧ statusCode .malformedLength = 1 ∧ statusCode .invalidSymbol = 2) ∧
  (∀ w : ResponseWord,
    (w.extractLsb' 35 2 = 0 → (readResponse w).map Response.st = some .ok) ∧
    (w.extractLsb' 35 2 = 1 → (readResponse w).map Response.st = some .malformedLength) ∧
    (w.extractLsb' 35 2 = 2 → (readResponse w).map Response.st = some .invalidSymbol))

/-! ### The alphabet -/

/-- R82: `symbol_of(v)` is the code in row `v` of the table, injective, with exactly the table as its image. -/
def Obligations.SymbolOfIsTheTable : Prop :=
  (∀ v : Value, alphabetTable[v.toNat]? = some (symbolOf v)) ∧
  (∀ v w : Value, symbolOf v = symbolOf w → v = w) ∧
  (alphabetTable.length = 64) ∧
  (∀ c : Byte, c ∈ alphabetTable ↔ ∃ v : Value, symbolOf v = c)

/-- R83: `value_of(c)` is the `v` with `symbol_of(v) = c` when there is one, else foreign; the foreign codes are the
listed ones, and every command that meets one fails, `DPUSH` by setting `dbad` for `DEND`. -/
def Obligations.ValueOfIsTheInverse : Prop :=
  (∀ (c : Byte) (v : Value), valueOf c = some v ↔ symbolOf v = c) ∧
  (∀ c : Byte, isForeign c = true ↔
    (c.toNat ≤ 0x2C ∨ c.toNat = 0x2E ∨ c.toNat = 0x2F ∨ (0x3A ≤ c.toNat ∧ c.toNat ≤ 0x40) ∨
      (0x5B ≤ c.toNat ∧ c.toNat ≤ 0x5E) ∨ c.toNat = 0x60 ∨ 0x7B ≤ c.toNat)) ∧
  ((List.range 256).countP (fun n => isForeign (BitVec.ofNat 8 n)) = 192) ∧
  (∀ (c : Byte) (s : State), isForeign c = true →
    exec (.valof c) s = .next { s with offered := s.offered ++ [⟨.invalidSymbol, 0, 0⟩] } ∧
    ∃ t, exec (.dpush c) s = .next t ∧ t.spc.dbad = true) ∧
  (∀ (s1 s2 s3 s4 c : Byte) (s : State), c ∈ [s1, s2, s3, s4] → isForeign c = true →
    exec (.unpack s1 s2 s3 s4) s = .next { s with offered := s.offered ++ [⟨.invalidSymbol, 0, 0⟩] })

/-- 40_alphabet.md section 2, the spec's own inference numbered R88: every character delivered is one of the
alphabet. -/
def Obligations.DeliveredCharactersAreAlphabet : Prop :=
  ∀ (i : Instr) (s : State), ∃ t r, exec i s = .next t ∧ t.offered = s.offered ++ [r] ∧
    (∀ c ∈ responseChars r, c ∈ alphabetTable) ∧
    (∀ v, i = .symof v → r.n = 1 ∧ ∃ c ∈ alphabetTable, r.dat = c.setWidth 32)

/-! ### Pack and Unpack -/

/-- 41_triplet.md section 2, the spec's own inference numbered R93: the four values are the four 6-bit lanes of the
24-bit number `T = b1 ‖ b2 ‖ b3`, and back. -/
def Obligations.LanesOfTheTriplet : Prop :=
  (∀ b1 b2 b3 : Byte,
    let T : BitVec 24 := b1 ++ b2 ++ b3
    packV b1 b2 b3 = ⟨T.extractLsb' 18 6, T.extractLsb' 12 6, T.extractLsb' 6 6, T.extractLsb' 0 6⟩) ∧
  (∀ c1 c2 c3 c4 : Value,
    let T : BitVec 24 := c1 ++ c2 ++ c3 ++ c4
    unpackV c1 c2 c3 c4 = ⟨T.extractLsb' 16 8, T.extractLsb' 8 8, T.extractLsb' 0 8⟩)

/-- 41_triplet.md section 3, the spec's own inference numbered R94 (and R9 of 00_scope.md): computing every shift in
an 8-bit register that drops the bits shifted out gives the same results. -/
def Obligations.EightBitRegistersSuffice : Prop :=
  (∀ b1 b2 b3 : Byte,
    packV b1 b2 b3 =
      ⟨(b1 >>> 2).setWidth 6,
       (((b1 &&& 0b11) <<< 4) ||| (b2 >>> 4)).setWidth 6,
       (((b2 &&& 0b1111) <<< 2) ||| (b3 >>> 6)).setWidth 6,
       (b3 &&& 0b111111).setWidth 6⟩) ∧
  (∀ c1 c2 c3 c4 : Value,
    let d1 : Byte := c1.setWidth 8
    let d2 : Byte := c2.setWidth 8
    let d3 : Byte := c3.setWidth 8
    let d4 : Byte := c4.setWidth 8
    unpackV c1 c2 c3 c4 =
      ⟨(d1 <<< 2) ||| ((d2 >>> 4) &&& 0b11),
       ((d2 <<< 4) &&& 0b11110000) ||| ((d3 >>> 2) &&& 0b1111),
       ((d3 <<< 6) &&& 0b11000000) ||| (d4 &&& 0b111111)⟩)

/-- 41_triplet.md section 1, the spec's own inference numbered R92: Unpack is the exact inverse of Pack, both ways. -/
def Obligations.PackAndUnpackAreInverse : Prop :=
  (∀ b1 b2 b3 : Byte,
    let q := pack b1 b2 b3
    unpack q.i1 q.i2 q.i3 q.i4 = some ⟨b1, b2, b3⟩) ∧
  (∀ (s1 s2 s3 s4 : Byte) (t : Triplet),
    unpack s1 s2 s3 s4 = some t → pack t.b1 t.b2 t.b3 = ⟨s1, s2, s3, s4⟩) ∧
  (∀ s1 s2 s3 s4 : Byte,
    unpack s1 s2 s3 s4 = none ↔
      (isForeign s1 = true ∨ isForeign s2 = true ∨ isForeign s3 = true ∨ isForeign s4 = true))

/-- 41_triplet.md section 4: what the characters of a padded quadruplet are, and `EEND` answers what `PACK` answers for
the group with its zeros written out. -/
def Obligations.PaddedQuadruplet : Prop :=
  (∀ b1 : Byte, (pack b1 0 0).i3 = 0x30 ∧ (pack b1 0 0).i4 = 0x30 ∧
    (pack b1 0 0).i2 ∈ ([0x30, 0x47, 0x57, 0x6D] : List Byte)) ∧
  (∀ b1 b2 : Byte, (pack b1 b2 0).i4 = 0x30 ∧
    ∃ v : Value, valueOf (pack b1 b2 0).i3 = some v ∧ v.toNat % 4 = 0) ∧
  (∀ s : State, s.spc.ecnt = 1 → ∃ t r, exec .eend s = .next t ∧ t.offered = s.offered ++ [r] ∧
    exec (.pack s.spc.eh0 0 0) s = .next { s with offered := s.offered ++ [r] }) ∧
  (∀ s : State, s.spc.ecnt = 2 → ∃ t r, exec .eend s = .next t ∧ t.offered = s.offered ++ [r] ∧
    exec (.pack s.spc.eh0 s.spc.eh1 0) s = .next { s with offered := s.offered ++ [r] })

/-! ### The commands: operands, result, and everything else unchanged -/

/-- R85: `SYMOF v`. -/
def Obligations.SymofResult : Prop :=
  (∀ w : CommandWord, w.extractLsb' 32 3 = 0b000 → decode w = .symof (w.extractLsb' 0 6)) ∧
  (∀ (v : Value) (s : State),
    exec (.symof v) s = .next { s with offered := s.offered ++ [⟨.ok, 1, (symbolOf v).setWidth 32⟩] })

/-- R86: `VALOF c`. -/
def Obligations.ValofResult : Prop :=
  (∀ w : CommandWord, w.extractLsb' 32 3 = 0b001 → decode w = .valof (w.extractLsb' 0 8)) ∧
  (∀ (c : Byte) (s : State), valueOf c = none →
    exec (.valof c) s = .next { s with offered := s.offered ++ [⟨.invalidSymbol, 0, 0⟩] }) ∧
  (∀ (c : Byte) (v : Value) (s : State), valueOf c = some v →
    exec (.valof c) s = .next { s with offered := s.offered ++ [⟨.ok, 1, v.setWidth 32⟩] })

/-- R95: `PACK b1, b2, b3`. -/
def Obligations.PackResult : Prop :=
  (∀ w : CommandWord, w.extractLsb' 32 3 = 0b010 →
    decode w = .pack (w.extractLsb' 16 8) (w.extractLsb' 8 8) (w.extractLsb' 0 8)) ∧
  (∀ (b1 b2 b3 : Byte) (s : State),
    let q := pack b1 b2 b3
    exec (.pack b1 b2 b3) s =
      .next { s with offered := s.offered ++ [⟨.ok, 4, q.i1 ++ q.i2 ++ q.i3 ++ q.i4⟩] })

/-- R97: `UNPACK s1, s2, s3, s4`. -/
def Obligations.UnpackResult : Prop :=
  (∀ w : CommandWord, w.extractLsb' 32 3 = 0b011 →
    decode w = .unpack (w.extractLsb' 24 8) (w.extractLsb' 16 8) (w.extractLsb' 8 8) (w.extractLsb' 0 8)) ∧
  (∀ (s1 s2 s3 s4 : Byte) (s : State),
    (valueOf s1 = none ∨ valueOf s2 = none ∨ valueOf s3 = none ∨ valueOf s4 = none) →
    exec (.unpack s1 s2 s3 s4) s = .next { s with offered := s.offered ++ [⟨.invalidSymbol, 0, 0⟩] }) ∧
  (∀ (s1 s2 s3 s4 : Byte) (c1 c2 c3 c4 : Value) (s : State),
    valueOf s1 = some c1 → valueOf s2 = some c2 → valueOf s3 = some c3 → valueOf s4 = some c4 →
    let t := unpackV c1 c2 c3 c4
    exec (.unpack s1 s2 s3 s4) s =
      .next { s with offered := s.offered ++ [⟨.ok, 3, 0#8 ++ t.b1 ++ t.b2 ++ t.b3⟩] })

/-- R104: `EPUSH b` in each phase that is ever held. -/
def Obligations.EpushResult : Prop :=
  (∀ w : CommandWord, w.extractLsb' 32 3 = 0b100 → decode w = .epush (w.extractLsb' 0 8)) ∧
  (∀ (b : Byte) (s : State), s.spc.ecnt = 0 →
    exec (.epush b) s = .next { s with
      spc := { s.spc with eh0 := b, ecnt := 1 }
      offered := s.offered ++ [⟨.ok, 0, 0⟩] }) ∧
  (∀ (b : Byte) (s : State), s.spc.ecnt = 1 →
    exec (.epush b) s = .next { s with
      spc := { s.spc with eh1 := b, ecnt := 2 }
      offered := s.offered ++ [⟨.ok, 0, 0⟩] }) ∧
  (∀ (b : Byte) (s : State), s.spc.ecnt = 2 →
    let q := pack s.spc.eh0 s.spc.eh1 b
    exec (.epush b) s = .next { s with
      spc := { s.spc with eh0 := 0, eh1 := 0, ecnt := 0 }
      offered := s.offered ++ [⟨.ok, 4, q.i1 ++ q.i2 ++ q.i3 ++ q.i4⟩] })

/-- R106: `EEND` in each phase that is ever held. At phase 0 the rule's arm ("answers `rsp(OK, 0, 0)` and changes
nothing") and its list of fields written agree in the states that meet R23, and the clause is about those. -/
def Obligations.EendResult : Prop :=
  (∀ w : CommandWord, w.extractLsb' 32 3 = 0b101 → decode w = .eend) ∧
  (∀ s : State, s.spc.ecnt = 0 → s.spc.encWf →
    exec .eend s = .next { s with offered := s.offered ++ [⟨.ok, 0, 0⟩] }) ∧
  (∀ s : State, s.spc.ecnt = 1 →
    let q := pack s.spc.eh0 0 0
    exec .eend s = .next { s with
      spc := { s.spc with eh0 := 0, eh1 := 0, ecnt := 0 }
      offered := s.offered ++ [⟨.ok, 4, q.i1 ++ q.i2 ++ q.i3 ++ q.i4⟩] }) ∧
  (∀ s : State, s.spc.ecnt = 2 →
    let q := pack s.spc.eh0 s.spc.eh1 0
    exec .eend s = .next { s with
      spc := { s.spc with eh0 := 0, eh1 := 0, ecnt := 0 }
      offered := s.offered ++ [⟨.ok, 4, q.i1 ++ q.i2 ++ q.i3 ++ q.i4⟩] }) ∧
  (∀ s : State, s.spc.encWf → ∃ t, exec .eend s = .next t ∧ t.spc.encIdle)

/-- R110: `DPUSH c` in each of the four phases. -/
def Obligations.DpushResult : Prop :=
  (∀ w : CommandWord, w.extractLsb' 32 3 = 0b110 → decode w = .dpush (w.extractLsb' 0 8)) ∧
  (∀ (c : Byte) (s : State), s.spc.dcnt = 0 →
    exec (.dpush c) s = .next { s with
      spc := { s.spc with
        dh0 := (valueOf c).getD s.spc.dh0, dcnt := 1, dbad := s.spc.dbad || isForeign c }
      offered := s.offered ++ [⟨.ok, 0, 0⟩] }) ∧
  (∀ (c : Byte) (s : State), s.spc.dcnt = 1 →
    exec (.dpush c) s = .next { s with
      spc := { s.spc with
        dh1 := (valueOf c).getD s.spc.dh1, dcnt := 2, dbad := s.spc.dbad || isForeign c }
      offered := s.offered ++ [⟨.ok, 0, 0⟩] }) ∧
  (∀ (c : Byte) (s : State), s.spc.dcnt = 2 →
    exec (.dpush c) s = .next { s with
      spc := { s.spc with
        dh2 := (valueOf c).getD s.spc.dh2, dcnt := 3, dbad := s.spc.dbad || isForeign c }
      offered := s.offered ++ [⟨.ok, 0, 0⟩] }) ∧
  (∀ (c : Byte) (v : Value) (s : State), s.spc.dcnt = 3 → s.spc.dbad = false → valueOf c = some v →
    let t := unpackV s.spc.dh0 s.spc.dh1 s.spc.dh2 v
    exec (.dpush c) s = .next { s with
      spc := { s.spc with dh0 := 0, dh1 := 0, dh2 := 0, dcnt := 0 }
      offered := s.offered ++ [⟨.ok, 3, 0#8 ++ t.b1 ++ t.b2 ++ t.b3⟩] }) ∧
  (∀ (c : Byte) (s : State), s.spc.dcnt = 3 → (s.spc.dbad = true ∨ valueOf c = none) →
    exec (.dpush c) s = .next { s with
      spc := { s.spc with dh0 := 0, dh1 := 0, dh2 := 0, dcnt := 0, dbad := true }
      offered := s.offered ++ [⟨.ok, 0, 0⟩] })

/-- R112: `DEND`, the verdict; DEC is cleared whatever it is. -/
def Obligations.DendResult : Prop :=
  (∀ w : CommandWord, w.extractLsb' 32 3 = 0b111 → decode w = .dend) ∧
  (∀ s : State,
    exec .dend s = .next { s with
      spc := { s.spc with dh0 := 0, dh1 := 0, dh2 := 0, dcnt := 0, dbad := false }
      offered := s.offered ++
        [if s.spc.dcnt ≠ 0 then ⟨.malformedLength, 0, 0⟩
         else if s.spc.dbad = true then ⟨.invalidSymbol, 0, 0⟩
         else ⟨.ok, 0, 0⟩] })

/-! ### Rules about all commands -/

/-- 30_encoding.md sections 4 and 6, 60_exceptions.md section 3: every command, in every state, answers exactly one
response, of one of the shapes the spec allows; the ports' other fields stand. -/
def Obligations.EveryCommandAnswersOnce : Prop :=
  ∀ (i : Instr) (s : State), ∃ a r,
    exec i s = .next { s with spc := a, offered := s.offered ++ [r] } ∧ r.wf = true ∧
    (responseWord r).extractLsb' 35 2 ≠ 3

/-- 20_memory.md section 4 (R47): leaf commands have no side effect and answer the same from every state; a second end command in a row
answers `rsp(OK, 0, 0)`; a push advances a phase, so it is not idempotent. -/
def Obligations.LeafCommandsAreStateless : Prop :=
  (∀ i : Instr, i.isLeaf = true → ∃ r, ∀ s : State,
    exec i s = .next { s with offered := s.offered ++ [r] }) ∧
  (∀ s : State, s.spc.encWf → ∃ t, exec .eend s = .next t ∧
    exec .eend t = .next { t with offered := t.offered ++ [⟨.ok, 0, 0⟩] }) ∧
  (∀ s : State, ∃ t, exec .dend s = .next t ∧
    exec .dend t = .next { t with offered := t.offered ++ [⟨.ok, 0, 0⟩] }) ∧
  (∀ (b : Byte) (s : State), s.spc.encWf → ∃ t, exec (.epush b) s = .next t ∧ t.spc.ecnt ≠ s.spc.ecnt) ∧
  (∀ (c : Byte) (s : State), ∃ t, exec (.dpush c) s = .next t ∧ t.spc.dcnt ≠ s.spc.dcnt)

/-- 10_state.md section 7 (rule R32's last sentence): frame and secrecy of the two units. A command changes only the
fields of its own unit, and its response and its unit's new fields depend on that unit's fields alone. -/
def Obligations.UnitsAreDisjoint : Prop :=
  (∀ (i : Instr) (s : State), ∃ t, exec i s = .next t ∧
    (i.family ≠ .enc → t.spc.encPart = s.spc.encPart) ∧
    (i.family ≠ .dec → t.spc.decPart = s.spc.decPart) ∧
    t.pending = s.pending ∧ t.taken = s.taken) ∧
  (∀ (i : Instr) (s s' : State),
    (i.family = .enc → s.spc.encPart = s'.spc.encPart) →
    (i.family = .dec → s.spc.decPart = s'.spc.decPart) →
    ∃ t t' r, exec i s = .next t ∧ exec i s' = .next t' ∧
      t.offered = s.offered ++ [r] ∧ t'.offered = s'.offered ++ [r] ∧
      (i.family = .enc → t.spc.encPart = t'.spc.encPart) ∧
      (i.family = .dec → t.spc.decPart = t'.spc.decPart))

/-- 20_memory.md section 6 (the commutation law of R48): an ENC-family and a DEC-family command commute, and a leaf
command commutes with every command: same final state, same two responses. -/
def Obligations.CommandsCommute : Prop :=
  ∀ (i j : Instr) (s : State), ((i.family = .enc ∧ j.family = .dec) ∨ i.isLeaf = true) →
    ∃ (ri rj : Response) (a : Arch) (t u : State),
      exec i s = .next t ∧ exec j t = .next { s with spc := a, offered := s.offered ++ [ri, rj] } ∧
      exec j s = .next u ∧ exec i u = .next { s with spc := a, offered := s.offered ++ [rj, ri] }

/-- R142: `MalformedLength` is raised by `DEND` only, exactly when `dcnt ≠ 0`; nothing but the code is recorded, and
DEC is idle afterwards. -/
def Obligations.MalformedLengthCause : Prop :=
  ∀ (i : Instr) (s : State), ∃ t r, exec i s = .next t ∧ t.offered = s.offered ++ [r] ∧
    (r.st = .malformedLength ↔ i = .dend ∧ s.spc.dcnt ≠ 0) ∧
    (r.st = .malformedLength →
      r = ⟨.malformedLength, 0, 0⟩ ∧ t.spc.decIdle ∧ t.spc.encPart = s.spc.encPart)

/-- R143: `InvalidSymbol` is raised by `VALOF` and `UNPACK` on a foreign character and by `DEND` when `dcnt = 0` and
`dbad = 1`; nothing but the code is recorded; no state changes but for `DEND`. -/
def Obligations.InvalidSymbolCause : Prop :=
  ∀ (i : Instr) (s : State), ∃ t r, exec i s = .next t ∧ t.offered = s.offered ++ [r] ∧
    (r.st = .invalidSymbol ↔
      (∃ c, i = .valof c ∧ isForeign c = true) ∨
      (∃ s1 s2 s3 s4, i = .unpack s1 s2 s3 s4 ∧
        (isForeign s1 || isForeign s2 || isForeign s3 || isForeign s4) = true) ∨
      (i = .dend ∧ s.spc.dcnt = 0 ∧ s.spc.dbad = true)) ∧
    (r.st = .invalidSymbol → r = ⟨.invalidSymbol, 0, 0⟩) ∧
    (r.st = .invalidSymbol → i ≠ .dend → t.spc = s.spc) ∧
    (r.st = .invalidSymbol → i = .dend → t.spc.decIdle ∧ t.spc.encPart = s.spc.encPart)

/-- R25: `dbad` is set by a `DPUSH` of a foreign character and by nothing else, cleared by `DEND` and reset and by
nothing else, and neither changes nor influences any other command. -/
def Obligations.DbadIsSticky : Prop :=
  (∀ (i : Instr) (s : State), ∃ t, exec i s = .next t ∧
    (s.spc.dbad = false → (t.spc.dbad = true ↔ ∃ c, i = .dpush c ∧ isForeign c = true)) ∧
    (s.spc.dbad = true → (t.spc.dbad = false ↔ i = .dend))) ∧
  (∀ (i : Instr) (s : State) (d : Bool), i ≠ .dend → (∀ c, i ≠ .dpush c) →
    ∃ a r, exec i s = .next { s with spc := a, offered := s.offered ++ [r] } ∧
      exec i { s with spc := { s.spc with dbad := d } } =
        .next { s with spc := { a with dbad := d }, offered := s.offered ++ [r] }) ∧
  (∀ (c : Byte) (s : State), s.spc.dcnt = 3 → (s.spc.dbad || isForeign c) = true →
    ∃ t, exec (.dpush c) s = .next t ∧ t.offered = s.offered ++ [⟨.ok, 0, 0⟩] ∧ t.spc.dbad = true) ∧
  (∀ s : State, s.spc.dcnt = 0 → s.spc.dbad = true →
    ∃ t, exec .dend s = .next t ∧ t.offered = s.offered ++ [⟨.invalidSymbol, 0, 0⟩] ∧ t.spc.dbad = false) ∧
  (∀ (s : State) (rest : List HostEvent), s.pending = .reset :: rest →
    ∃ t, step s = .next t ∧ t.spc.dbad = false) ∧
  State.reset.spc.dbad = false

/-- 20_memory.md section 2 (the spec's own inference numbered R45): three bytes give the same quadruplet in one `PACK`
and in three `EPUSH`; four alphabet characters give the same triplet in one `UNPACK` and in four `DPUSH`. -/
def Obligations.MixedWidthAgreement : Prop :=
  (∀ (s : State) (b1 b2 b3 : Byte), s.spc.encIdle → ∃ r,
    exec (.pack b1 b2 b3) s = .next { s with offered := s.offered ++ [r] } ∧
    run 3 (s.running [.epush b1, .epush b2, .epush b3]) =
      .next { s with pending := [], offered := s.offered ++ [⟨.ok, 0, 0⟩, ⟨.ok, 0, 0⟩, r] }) ∧
  (∀ (s : State) (c1 c2 c3 c4 : Byte), s.spc.decIdle → (∀ c ∈ [c1, c2, c3, c4], isForeign c = false) → ∃ r,
    exec (.unpack c1 c2 c3 c4) s = .next { s with offered := s.offered ++ [r] } ∧
    run 4 (s.running [.dpush c1, .dpush c2, .dpush c3, .dpush c4]) =
      .next { s with pending := [], offered := s.offered ++ [⟨.ok, 0, 0⟩, ⟨.ok, 0, 0⟩, ⟨.ok, 0, 0⟩, r] })

/-! ### Steps, ports and reset -/

/-- 30_encoding.md section 6: a pending command word is decoded and executed, and the event is past. -/
def Obligations.StepRunsTheDecodedCommand : Prop :=
  ∀ (s : State) (w : CommandWord) (rest : List HostEvent), s.pending = .command w :: rest →
    (decode w).wf = true ∧ step s = exec (decode w) { s with pending := rest }

/-- 30_encoding.md section 2: taking a response moves the oldest one offered, whose word stands on `rsp_data`. That a
`take` with nothing offered changes nothing else, and that nothing pending leaves the state as it is, are the model's
choices (log 3, log 5). -/
def Obligations.PortEventsMoveResponses : Prop :=
  (∀ (s : State) (r : Response) (rs : List Response) (rest : List HostEvent),
    s.pending = .take :: rest → s.offered = r :: rs →
    s.rspData = some (responseWord r) ∧
    step s = .next { s with pending := rest, offered := rs, taken := s.taken ++ [r] }) ∧
  (∀ (s : State) (rest : List HostEvent), s.pending = .take :: rest → s.offered = [] →
    s.rspValid = false ∧ step s = .next { s with pending := rest }) ∧
  (∀ s : State, s.pending = [] → step s = .next s)

/-- R30: the reset state has every field zero. -/
def Obligations.ResetStateIsAllZero : Prop :=
  State.reset.spc.eh0 = 0 ∧ State.reset.spc.eh1 = 0 ∧ State.reset.spc.ecnt = 0 ∧
  State.reset.spc.dh0 = 0 ∧ State.reset.spc.dh1 = 0 ∧ State.reset.spc.dh2 = 0 ∧
  State.reset.spc.dcnt = 0 ∧ State.reset.spc.dbad = false

/-- 70_reset_and_hazards.md section 1: a reset replaces the state by `S0` and produces no response. That a response
still outstanding is dropped and that the record of taken responses starts anew are the model's choices (log 4,
log 6). -/
def Obligations.ResetEventGivesS0 : Prop :=
  ∀ (s : State) (rest : List HostEvent), s.pending = .reset :: rest →
    step s = .next { State.reset with pending := rest } ∧
    State.reset.spc.encIdle ∧ State.reset.spc.decIdle ∧ State.reset.offered = []

/-- R53: exactly one response per command, leaving in the order of the commands, however the taking is interleaved. -/
def Obligations.ResponsesLeaveInCommandOrder : Prop :=
  ∀ (s : State) (events : List HostEvent), (∀ e ∈ events, e.isReset = false) →
    let commands := events.filter HostEvent.isCommand
    ∃ (t u : State) (rs : List Response),
      run events.length { s with pending := events } = .next t ∧
      run commands.length { s with pending := commands } = .next u ∧
      u.offered = s.offered ++ rs ∧ rs.length = commands.length ∧
      t.taken ++ t.offered = s.taken ++ s.offered ++ rs ∧ t.spc = u.spc

/-- 70_reset_and_hazards.md sections 3 and 4 (R171 and the untimed half of R175): a host that takes each response gets
the response of each of its commands, and none stays outstanding. -/
def Obligations.EveryCommandIsAnswered : Prop :=
  ∀ (s : State) (words : List CommandWord), s.offered = [] →
    ∃ (t u : State),
      run (2 * words.length) { s with pending := words.flatMap fun w => [.command w, .take] } = .next t ∧
      run words.length (s.presenting words) = .next u ∧
      t.offered = [] ∧ t.taken = s.taken ++ u.offered ∧ u.offered.length = words.length ∧ t.spc = u.spc

/-! ### Invariants and histories -/

/-- Every step keeps the invariant: R23 and R24 (the spec's own inferences) and the response shapes of 30_encoding.md
section 4. -/
def Obligations.StepKeepsTheInvariant : Prop :=
  ∀ s t : State, s.Inv → step s = .next t → t.Inv

/-- The invariant holds right after reset. -/
def Obligations.ResetMeetsTheInvariant : Prop := State.reset.Inv

/-- 10_state.md section 2 (the spec's own inferences numbered R23 and R24): every state reachable from reset, whatever
the host does, meets the invariants. -/
def Obligations.ReachableStatesMeetTheInvariant : Prop :=
  ∀ (events : List HostEvent) (n : Nat), ∃ t,
    run n { State.reset with pending := events } = .next t ∧ t.Inv

/-- 10_state.md sections 2 and 3 (the inference of R22; R23 to R25): the architectural state is what the bytes and
characters pushed since the last end command or reset determine. In particular `ecnt` is their count modulo 3, `dcnt`
modulo 4, and `dbad` says whether a foreign character was among them. -/
def Obligations.HistoryDeterminesTheState : Prop :=
  ∀ history : List HostEvent, ∃ t,
    run history.length { State.reset with pending := history } = .next t ∧ t.pending = [] ∧
    t.spc = archOfHistory (openBytes history) (openChars history)

/-- 10_state.md section 6 (the spec's own inference numbered R31) and R20 (b): which commands leave a unit idle. -/
def Obligations.EndCommandsLeaveUnitsIdle : Prop :=
  (∀ s : State, s.spc.encWf → ∃ t, exec .eend s = .next t ∧ t.spc.encIdle) ∧
  (∀ s : State, ∃ t, exec .dend s = .next t ∧ t.spc.decIdle) ∧
  (∀ (b : Byte) (s : State), s.spc.ecnt = 2 → ∃ t, exec (.epush b) s = .next t ∧ t.spc.encIdle) ∧
  (∀ (c : Byte) (s : State), s.spc.dcnt = 3 → s.spc.dbad = false → isForeign c = false →
    ∃ t, exec (.dpush c) s = .next t ∧ t.spc.decIdle) ∧
  (∀ s : State, s.Inv → (s.spc.ecnt = 0 → s.spc.encIdle) ∧
    (s.spc.dcnt = 0 → s.spc.dbad = false → s.spc.decIdle))

/-! ### The buffer codec -/

/-- R100: `encode_buffer` as a recursion on the buffer, and its output length. -/
def Obligations.EncodeBufferRecursion : Prop :=
  encodeBuffer [] = [] ∧
  (∀ b1, encodeBuffer [b1] = (pack b1 0 0).toList) ∧
  (∀ b1 b2, encodeBuffer [b1, b2] = (pack b1 b2 0).toList) ∧
  (∀ b1 b2 b3 rest, encodeBuffer ([b1, b2, b3] ++ rest) = (pack b1 b2 b3).toList ++ encodeBuffer rest) ∧
  (∀ x : List Byte, (encodeBuffer x).length = 4 * ((x.length + 2) / 3))

/-- R101: the two failures of `decode_buffer` in their order, and the triplets of a string that has neither. -/
def Obligations.DecodeBufferVerdicts : Prop :=
  (∀ y : List Byte, y.length % 4 ≠ 0 → decodeBuffer y = .err .malformedLength) ∧
  (∀ y : List Byte, y.length % 4 = 0 → (∃ c ∈ y, isForeign c = true) → decodeBuffer y = .err .invalidSymbol) ∧
  (∀ y : List Byte, y.length % 4 = 0 → (∀ c ∈ y, isForeign c = false) →
    ∃ z : List Byte, decodeBuffer y = .ok z ∧ z.length = 3 * y.length / 4 ∧
      ∀ g, g < y.length / 4 →
        unpack (y.getD (4 * g) 0) (y.getD (4 * g + 1) 0) (y.getD (4 * g + 2) 0) (y.getD (4 * g + 3) 0) =
          some ⟨z.getD (3 * g) 0, z.getD (3 * g + 1) 0, z.getD (3 * g + 2) 0⟩)

/-- 42_buffer_codec.md section 5 (the spec's own inference numbered R118): an encode transaction computes
`encode_buffer`, response by response, and leaves ENC idle and DEC alone. -/
def Obligations.EncoderRefinement : Prop :=
  ∀ (s : State) (x : List Byte), s.spc.encIdle →
    ∃ (t : State) (rs : List Response),
      run (x.length + 1) (s.running (encodeTransaction x)) = .next t ∧
      t.offered = s.offered ++ rs ∧ t.taken = s.taken ∧ t.pending = [] ∧
      t.spc.encIdle ∧ t.spc.decPart = s.spc.decPart ∧
      encodeResult rs = encodeBuffer x ∧
      (∀ i, i < x.length → rs[i]? = some
        (if i % 3 = 2 then .quartet (pack (x.getD (i - 2) 0) (x.getD (i - 1) 0) (x.getD i 0)) else .nothing)) ∧
      rs[x.length]? = some
        (if x.length % 3 = 0 then .nothing
         else if x.length % 3 = 1 then .quartet (pack (x.getD (x.length - 1) 0) 0 0)
         else .quartet (pack (x.getD (x.length - 2) 0) (x.getD (x.length - 1) 0) 0)) ∧
      rs.length = x.length + 1 ∧
      rs.countP (fun r => r.n == 4) = (x.length + 2) / 3

/-- 42_buffer_codec.md section 5 (the spec's own inference numbered R119): a decode transaction computes
`decode_buffer`, response by response, and leaves DEC idle and ENC alone. -/
def Obligations.DecoderRefinement : Prop :=
  ∀ (s : State) (y : List Byte), s.spc.decIdle →
    ∃ (t : State) (pushes : List Response) (verdict : Response),
      run (y.length + 1) (s.running (decodeTransaction y)) = .next t ∧
      t.offered = s.offered ++ pushes ++ [verdict] ∧ t.taken = s.taken ∧ t.pending = [] ∧
      t.spc.decIdle ∧ t.spc.encPart = s.spc.encPart ∧
      decodeResult pushes verdict = decodeBuffer y ∧
      pushes.length = y.length ∧
      (∀ i, i < y.length → i % 4 = 3 → (∀ g, firstForeignGroup y = some g → i / 4 < g) →
        ∃ triplet, unpack (y.getD (i - 3) 0) (y.getD (i - 2) 0) (y.getD (i - 1) 0) (y.getD i 0) = some triplet ∧
          pushes[i]? = some (.triplet triplet)) ∧
      (∀ i, i < y.length → (i % 4 ≠ 3 ∨ ∃ g, firstForeignGroup y = some g ∧ g ≤ i / 4) →
        pushes[i]? = some .nothing) ∧
      verdict =
        (if y.length % 4 ≠ 0 then .failure .malformedLength
         else if y.any isForeign = true then .failure .invalidSymbol
         else .nothing)

/-- 42_buffer_codec.md section 5 (the spec's own inference numbered R120): what has been delivered and what is held
after some pushes of a transaction. -/
def Obligations.StreamingPrefix : Prop :=
  (∀ (s : State) (x : List Byte), s.spc.encIdle →
    ∃ (t : State) (rs : List Response),
      run x.length (s.running (x.map .epush)) = .next t ∧ t.offered = s.offered ++ rs ∧
      encodeResult rs = encodeBuffer (x.take (3 * (x.length / 3))) ∧
      t.spc.encPart = (x.getD (3 * (x.length / 3)) 0, x.getD (3 * (x.length / 3) + 1) 0,
        BitVec.ofNat 2 (x.length % 3))) ∧
  (∀ (s : State) (y : List Byte), s.spc.decIdle → (∀ c ∈ y, isForeign c = false) →
    ∃ (t : State) (rs : List Response),
      run y.length (s.running (y.map .dpush)) = .next t ∧ t.offered = s.offered ++ rs ∧
      decodeBuffer (y.take (4 * (y.length / 4))) = .ok (rs.flatMap responseBytes) ∧
      t.spc.decPart = ((heldValue (y.drop (4 * (y.length / 4))) 0, heldValue (y.drop (4 * (y.length / 4))) 1,
        heldValue (y.drop (4 * (y.length / 4))) 2), BitVec.ofNat 2 (y.length % 4), false))

/-- 42_buffer_codec.md section 5 (the spec's own inference numbered R121): the lengths of transaction results, and the
characters of an encode result. -/
def Obligations.TransactionLengths : Prop :=
  (∀ (s : State) (x : List Byte), s.spc.encIdle →
    ∃ (t : State) (rs : List Response),
      run (x.length + 1) (s.running (encodeTransaction x)) = .next t ∧ t.offered = s.offered ++ rs ∧
      (encodeResult rs).length = 4 * ((x.length + 2) / 3) ∧
      ∀ c ∈ encodeResult rs, c ∈ alphabetTable) ∧
  (∀ (s : State) (y z : List Byte), s.spc.decIdle →
    ∃ (t : State) (pushes : List Response) (verdict : Response),
      run (y.length + 1) (s.running (decodeTransaction y)) = .next t ∧
      t.offered = s.offered ++ pushes ++ [verdict] ∧ pushes.length = y.length ∧
      (decodeResult pushes verdict = .ok z → z.length = 3 * y.length / 4 ∧ z.length % 3 = 0))

/-- 42_buffer_codec.md section 5 (the spec's own inference numbered R122, part a): decoding an encoder's output never
fails and returns the payload followed by exactly the fabricated zeros. -/
def Obligations.DecodeOfEncodedBuffer : Prop :=
  ∀ x : List Byte, decodeBuffer (encodeBuffer x) = .ok (x ++ zeros (padCount x)) ∧
    (padCount x = 0 ↔ x.length % 3 = 0)

/-- 42_buffer_codec.md section 5 (the spec's own inference numbered R122, part b): on well-formed strings the decode
loses nothing. -/
def Obligations.EncodeOfDecodedString : Prop :=
  ∀ y z : List Byte, decodeBuffer y = .ok z → encodeBuffer z = y

/-- 42_buffer_codec.md section 5 (the spec's own inference numbered R122, part c): the length of a short final group is
lost, and nothing else is. -/
def Obligations.LostLength : Prop :=
  (∀ x : List Byte, x.length % 3 = 1 →
    encodeBuffer (x ++ [0]) = encodeBuffer x ∧ encodeBuffer (x ++ [0, 0]) = encodeBuffer x) ∧
  (∀ x : List Byte, x.length % 3 = 2 → encodeBuffer (x ++ [0]) = encodeBuffer x) ∧
  (∀ x x' : List Byte, x.length = x'.length → encodeBuffer x = encodeBuffer x' → x = x')

/-- 20_memory.md section 6 and 42_buffer_codec.md section 2 (R48, R102): in any mixture of commands, the responses to
the commands of one unit, and that unit's fields afterwards, are those of running that unit's commands alone. -/
def Obligations.InterleavingIsolation : Prop :=
  ∀ (s : State) (words : List CommandWord) (f : Family), (f = .enc ∨ f = .dec) →
    ∃ (t u : State) (rs us : List Response),
      run words.length (s.presenting words) = .next t ∧
      run (familyWords f words).length (s.presenting (familyWords f words)) = .next u ∧
      t.offered = s.offered ++ rs ∧ rs.length = words.length ∧ u.offered = s.offered ++ us ∧
      familyResponses f words rs = us ∧
      (f = .enc → t.spc.encPart = u.spc.encPart) ∧
      (f = .dec → t.spc.decPart = u.spc.decPart)

/-- 70_reset_and_hazards.md section 3 (hazard H3, the inference of R168 part b): a `dbad` carried into a string leaves it
without triplets and with a failing verdict, after which DEC is idle. -/
def Obligations.CarriedDbadFailsTheNextString : Prop :=
  ∀ (s : State) (y : List Byte), s.spc.dbad = true →
    ∃ (t : State) (verdict : Response),
      run (y.length + 1) (s.running (decodeTransaction y)) = .next t ∧
      t.offered = s.offered ++ List.replicate y.length .nothing ++ [verdict] ∧
      (verdict = .failure .malformedLength ∨ verdict = .failure .invalidSymbol) ∧ t.spc.decIdle

/-! ### The host's backends -/

/-- R132: `trim_trailing_zero_bytes(z)` is the longest prefix of `z` that does not end in a byte of value 0. -/
def Obligations.TrimIsTheLongestPrefix : Prop :=
  ∀ z : List Byte,
    trimTrailingZeroBytes z <+: z ∧
    (trimTrailingZeroBytes z).getLast? ≠ some 0 ∧
    (∃ k, z = trimTrailingZeroBytes z ++ zeros k) ∧
    (∀ p : List Byte, p <+: z → p.getLast? ≠ some 0 → p <+: trimTrailingZeroBytes z)

/-- 43_backend_adapters.md section 3: the well-known hex transform is a codec that keeps the contract: its output is
over `0-9a-f` and two characters a byte, its inverse gives the bytes back, and it rejects an odd length and any other
character. That the high digit comes first is DEDUCED (log 12). -/
def Obligations.HexCodecContract : Prop :=
  (∀ text : List Byte, (highFirstHex text).length = 2 * text.length ∧
    (∀ c ∈ highFirstHex text, c ≠ 0 ∧ isHexDigit c = true) ∧ highFirstBytes (highFirstHex text) = some text) ∧
  (∀ y : List Byte, (y.length % 2 = 1 ∨ ∃ c ∈ y, isHexDigit c = false) → highFirstBytes y = none) ∧
  (∃ h : HexCodec, h.hexEncode = highFirstHex ∧ h.hexDecode = highFirstBytes)

/-- 43_backend_adapters.md section 3 (the spec's own inference numbered R135): the hex backend's round trip, the trim
being exact, for every hex codec that keeps the contract of R133 and R134 (the codec is opaque, log 12), and the number
of zeros trimmed. -/
def Obligations.HexBackendRoundTrip : Prop :=
  ∀ (h : HexCodec) (text : List Byte),
    let y := h.hexEncode text
    decodeBuffer (encodeBuffer y) = .ok (y ++ zeros (padCount y)) ∧
    trimTrailingZeroBytes (y ++ zeros (padCount y)) = y ∧
    h.decode (h.encode text) = .ok text ∧
    padCount y = (if y.length % 3 = 0 then 0 else if y.length % 3 = 1 then 2 else 1)

/-- The same round trip with both transactions run on the machine (R135 with the inferences R118 and R119); the hex
codec is opaque (log 12). -/
def Obligations.HexRoundTripOnTheMachine : Prop :=
  ∀ (h : HexCodec) (s : State) (text : List Byte), s.spc.encIdle → s.spc.decIdle →
    ∃ (t u : State) (rs pushes : List Response) (verdict : Response) (z : List Byte),
      run ((h.hexEncode text).length + 1) (s.running (encodeTransaction (h.hexEncode text))) = .next t ∧
      t.offered = s.offered ++ rs ∧
      run ((encodeResult rs).length + 1) (t.running (decodeTransaction (encodeResult rs))) = .next u ∧
      u.offered = t.offered ++ pushes ++ [verdict] ∧
      decodeResult pushes verdict = .ok z ∧
      h.hexDecode (trimTrailingZeroBytes z) = some text ∧ u.spc = s.spc

/-- 43_backend_adapters.md section 2: the deflate backend's round trip, for every codec with the property R131 names
(the codec is opaque, log 14) and every text, no condition on either; the text's bytes are its UTF-8, whose definition is
PRESUMED (log 17). In bytes: every buffer that is valid UTF-8 comes back, and any other is reported as not UTF-8. -/
def Obligations.DeflateBackendRoundTrip : Prop :=
  (∀ (d : DeflateCodec) (t : Text), d.decode (d.encode (utf8Bytes t)) = .ok (utf8Bytes t)) ∧
  (∀ (d : DeflateCodec) (text : List Byte), validUtf8 text = true → d.decode (d.encode text) = .ok text) ∧
  (∀ (d : DeflateCodec) (text : List Byte), validUtf8 text = false → d.decode (d.encode text) = .err .invalidUtf8)

/-- 43_backend_adapters.md sections 2 to 4: a backend surfaces the failures of `decode_buffer` and those of its codec,
each as its own kind of error; the hex codec rejects an odd length and a character outside `0-9a-f`. The codecs are the
model's parameters (log 12, log 14). The last clause rests on the definition of UTF-8, which is PRESUMED (log 17). A
string without the marker is not spoken of, since its result is a free value (N20, log 13). -/
def Obligations.BackendsSurfaceFailures : Prop :=
  (∀ (h : HexCodec) (y : List Byte) (e : CodecError), decodeBuffer y = .err e → h.decode (hexMarker ++ y) = .err e) ∧
  (∀ (h : HexCodec) (y z : List Byte), decodeBuffer y = .ok z →
    ((trimTrailingZeroBytes z).length % 2 = 1 ∨ ∃ c ∈ trimTrailingZeroBytes z, isHexDigit c = false) →
    h.decode (hexMarker ++ y) = .err .upstreamCodecFailure) ∧
  (∀ (d : DeflateCodec) (y : List Byte) (e : CodecError), decodeBuffer y = .err e → d.decode y = .err e) ∧
  (∀ (d : DeflateCodec) (y z : List Byte), decodeBuffer y = .ok z → d.decompress z = none →
    d.decode y = .err .upstreamCodecFailure) ∧
  (∀ (d : DeflateCodec) (y z u : List Byte), decodeBuffer y = .ok z → d.decompress z = some u →
    validUtf8 u = false → d.decode y = .err .invalidUtf8)

/-! ### The history, step by step -/

/-- 10_state.md sections 2 and 3 (the inference of R22; R23 to R25): every step keeps the architectural state what the
pushed bytes and characters determine, whatever event comes, from every such state, reached or not. -/
def Obligations.StepAdvancesTheHistory : Prop :=
  ∀ (s : State) (x y : List Byte) (e : HostEvent) (rest : List HostEvent),
    s.pending = e :: rest → s.spc = archOfHistory x y →
    ∃ t, step s = .next t ∧ t.pending = rest ∧ t.spc = archOfHistory (bytesAfter x e) (charsAfter y e)

/-- Right after reset nothing has been pushed, and the architectural state is what that determines. -/
def Obligations.ResetIsTheEmptyHistory : Prop :=
  State.reset.spc = archOfHistory [] []

/-! ### UTF-8 -/

/-- 43_backend_adapters.md sections 2 and 3 name UTF-8; its definition is PRESUMED (log 17). The check the deflate backend
ends with takes exactly the byte lists that are the UTF-8 of a text, and a text's bytes tell the text. -/
def Obligations.ValidUtf8IsTheUtf8OfTexts : Prop :=
  (∀ bytes : List Byte, validUtf8 bytes = true ↔ ∃ t : Text, utf8Bytes t = bytes) ∧
  (∀ t u : Text, utf8Bytes t = utf8Bytes u → t = u)
end

