-- ==== Sys2Proof/Laws/Bits.lean ====
section
/-! SUPPORT. Bit vectors as numbers: what a concatenation, a field and a masked shift are worth. With these, `omega`
settles questions about fields of a known width. -/

namespace Sys2Proof.Laws

theorem toNat_append {m n : Nat} (x : BitVec m) (y : BitVec n) :
    (x ++ y).toNat = x.toNat * 2 ^ n + y.toNat := by
  rw [BitVec.toNat_append, ← Nat.shiftLeft_add_eq_or_of_lt y.isLt, Nat.shiftLeft_eq]

theorem toNat_extract {w : Nat} (x : BitVec w) (lo len : Nat) :
    (x.extractLsb' lo len).toNat = x.toNat / 2 ^ lo % 2 ^ len := by
  simp [BitVec.extractLsb'_toNat, Nat.shiftRight_eq_div_pow]

theorem or_eq_add {a b : Nat} (k : Nat) (h : b < 2 ^ k) : a <<< k ||| b = a * 2 ^ k + b := by
  rw [← Nat.shiftLeft_add_eq_or_of_lt h, Nat.shiftLeft_eq]

theorem and_mask (x k : Nat) : x &&& (2 ^ k - 1) = x % 2 ^ k := Nat.and_two_pow_sub_one_eq_mod x k

theorem and_mask_shifted (x j k : Nat) : x <<< k &&& ((2 ^ j - 1) <<< k) = (x % 2 ^ j) <<< k := by
  rw [← Nat.shiftLeft_and_distrib, and_mask]

/-- Four bytes side by side as one number. -/
theorem toNat_fourBytes (a b c d : Byte) :
    (a ++ b ++ c ++ d : BitVec 32).toNat = ((a.toNat * 256 + b.toNat) * 256 + c.toNat) * 256 + d.toNat := by
  have h1 : (a ++ b ++ c ++ d : BitVec 32).toNat = (a ++ b ++ c).toNat * 2 ^ 8 + d.toNat := toNat_append _ _
  have h2 : (a ++ b ++ c).toNat = (a ++ b).toNat * 2 ^ 8 + c.toNat := toNat_append _ _
  have h3 : (a ++ b).toNat = a.toNat * 2 ^ 8 + b.toNat := toNat_append _ _
  rw [h1, h2, h3]; omega

end Sys2Proof.Laws
end

