-- ==== Sys2Proof/Laws/State.lean ====
section
/-! SUPPORT. One lemma per field per update of the state, so that no later proof unfolds a record update. -/

namespace Sys2Proof.Laws

open Sys2Proof.Machine

/-! ### holdFirst -/

@[simp] theorem holdFirst_eh0 (a : Arch) (b : Byte) : (a.holdFirst b).eh0 = b := rfl
@[simp] theorem holdFirst_eh1 (a : Arch) (b : Byte) : (a.holdFirst b).eh1 = a.eh1 := rfl
@[simp] theorem holdFirst_ecnt (a : Arch) (b : Byte) : (a.holdFirst b).ecnt = 1 := rfl
@[simp] theorem holdFirst_dh0 (a : Arch) (b : Byte) : (a.holdFirst b).dh0 = a.dh0 := rfl
@[simp] theorem holdFirst_dh1 (a : Arch) (b : Byte) : (a.holdFirst b).dh1 = a.dh1 := rfl
@[simp] theorem holdFirst_dh2 (a : Arch) (b : Byte) : (a.holdFirst b).dh2 = a.dh2 := rfl
@[simp] theorem holdFirst_dcnt (a : Arch) (b : Byte) : (a.holdFirst b).dcnt = a.dcnt := rfl
@[simp] theorem holdFirst_dbad (a : Arch) (b : Byte) : (a.holdFirst b).dbad = a.dbad := rfl

/-! ### holdSecond -/

@[simp] theorem holdSecond_eh0 (a : Arch) (b : Byte) : (a.holdSecond b).eh0 = a.eh0 := rfl
@[simp] theorem holdSecond_eh1 (a : Arch) (b : Byte) : (a.holdSecond b).eh1 = b := rfl
@[simp] theorem holdSecond_ecnt (a : Arch) (b : Byte) : (a.holdSecond b).ecnt = 2 := rfl
@[simp] theorem holdSecond_dh0 (a : Arch) (b : Byte) : (a.holdSecond b).dh0 = a.dh0 := rfl
@[simp] theorem holdSecond_dh1 (a : Arch) (b : Byte) : (a.holdSecond b).dh1 = a.dh1 := rfl
@[simp] theorem holdSecond_dh2 (a : Arch) (b : Byte) : (a.holdSecond b).dh2 = a.dh2 := rfl
@[simp] theorem holdSecond_dcnt (a : Arch) (b : Byte) : (a.holdSecond b).dcnt = a.dcnt := rfl
@[simp] theorem holdSecond_dbad (a : Arch) (b : Byte) : (a.holdSecond b).dbad = a.dbad := rfl

/-! ### clearEnc -/

@[simp] theorem clearEnc_eh0 (a : Arch) : (a.clearEnc).eh0 = 0 := rfl
@[simp] theorem clearEnc_eh1 (a : Arch) : (a.clearEnc).eh1 = 0 := rfl
@[simp] theorem clearEnc_ecnt (a : Arch) : (a.clearEnc).ecnt = 0 := rfl
@[simp] theorem clearEnc_dh0 (a : Arch) : (a.clearEnc).dh0 = a.dh0 := rfl
@[simp] theorem clearEnc_dh1 (a : Arch) : (a.clearEnc).dh1 = a.dh1 := rfl
@[simp] theorem clearEnc_dh2 (a : Arch) : (a.clearEnc).dh2 = a.dh2 := rfl
@[simp] theorem clearEnc_dcnt (a : Arch) : (a.clearEnc).dcnt = a.dcnt := rfl
@[simp] theorem clearEnc_dbad (a : Arch) : (a.clearEnc).dbad = a.dbad := rfl

/-! ### clearGroup -/

@[simp] theorem clearGroup_eh0 (a : Arch) (bad : Bool) : (a.clearGroup bad).eh0 = a.eh0 := rfl
@[simp] theorem clearGroup_eh1 (a : Arch) (bad : Bool) : (a.clearGroup bad).eh1 = a.eh1 := rfl
@[simp] theorem clearGroup_ecnt (a : Arch) (bad : Bool) : (a.clearGroup bad).ecnt = a.ecnt := rfl
@[simp] theorem clearGroup_dh0 (a : Arch) (bad : Bool) : (a.clearGroup bad).dh0 = 0 := rfl
@[simp] theorem clearGroup_dh1 (a : Arch) (bad : Bool) : (a.clearGroup bad).dh1 = 0 := rfl
@[simp] theorem clearGroup_dh2 (a : Arch) (bad : Bool) : (a.clearGroup bad).dh2 = 0 := rfl
@[simp] theorem clearGroup_dcnt (a : Arch) (bad : Bool) : (a.clearGroup bad).dcnt = 0 := rfl
@[simp] theorem clearGroup_dbad (a : Arch) (bad : Bool) : (a.clearGroup bad).dbad = bad := rfl

/-! ### clearDec -/

@[simp] theorem clearDec_eh0 (a : Arch) : (a.clearDec).eh0 = a.eh0 := rfl
@[simp] theorem clearDec_eh1 (a : Arch) : (a.clearDec).eh1 = a.eh1 := rfl
@[simp] theorem clearDec_ecnt (a : Arch) : (a.clearDec).ecnt = a.ecnt := rfl
@[simp] theorem clearDec_dh0 (a : Arch) : (a.clearDec).dh0 = 0 := rfl
@[simp] theorem clearDec_dh1 (a : Arch) : (a.clearDec).dh1 = 0 := rfl
@[simp] theorem clearDec_dh2 (a : Arch) : (a.clearDec).dh2 = 0 := rfl
@[simp] theorem clearDec_dcnt (a : Arch) : (a.clearDec).dcnt = 0 := rfl
@[simp] theorem clearDec_dbad (a : Arch) : (a.clearDec).dbad = false := rfl

/-! ### setDh and holdSymbol -/

@[simp] theorem setDh_eh0 (a : Arch) (p : BitVec 2) (v : Value) : (a.setDh p v).eh0 = a.eh0 := by
  unfold Arch.setDh; split <;> rfl

@[simp] theorem setDh_eh1 (a : Arch) (p : BitVec 2) (v : Value) : (a.setDh p v).eh1 = a.eh1 := by
  unfold Arch.setDh; split <;> rfl

@[simp] theorem setDh_ecnt (a : Arch) (p : BitVec 2) (v : Value) : (a.setDh p v).ecnt = a.ecnt := by
  unfold Arch.setDh; split <;> rfl

@[simp] theorem setDh_dcnt (a : Arch) (p : BitVec 2) (v : Value) : (a.setDh p v).dcnt = a.dcnt := by
  unfold Arch.setDh; split <;> rfl

@[simp] theorem setDh_dbad (a : Arch) (p : BitVec 2) (v : Value) : (a.setDh p v).dbad = a.dbad := by
  unfold Arch.setDh; split <;> rfl

@[simp] theorem holdSymbol_eh0 (a : Arch) (v : Option Value) (bad : Bool) : (a.holdSymbol v bad).eh0 = a.eh0 := by
  cases v <;> simp [Arch.holdSymbol]

@[simp] theorem holdSymbol_eh1 (a : Arch) (v : Option Value) (bad : Bool) : (a.holdSymbol v bad).eh1 = a.eh1 := by
  cases v <;> simp [Arch.holdSymbol]

@[simp] theorem holdSymbol_ecnt (a : Arch) (v : Option Value) (bad : Bool) : (a.holdSymbol v bad).ecnt = a.ecnt := by
  cases v <;> simp [Arch.holdSymbol]

@[simp] theorem holdSymbol_dcnt (a : Arch) (v : Option Value) (bad : Bool) : (a.holdSymbol v bad).dcnt = a.dcnt + 1 := rfl

@[simp] theorem holdSymbol_dbad (a : Arch) (v : Option Value) (bad : Bool) : (a.holdSymbol v bad).dbad = bad := rfl

/-- A foreign character leaves the three values as they are (R24, R110). -/
theorem holdSymbol_foreign (a : Arch) (bad : Bool) :
    a.holdSymbol none bad = { a with dcnt := a.dcnt + 1, dbad := bad } := rfl

/-- What `holdSymbol` does in each phase that calls it (R110). -/
theorem holdSymbol_phase (a : Arch) (v : Option Value) (bad : Bool) :
    (a.dcnt = 0 → a.holdSymbol v bad = { a with dh0 := v.getD a.dh0, dcnt := 1, dbad := bad }) ∧
    (a.dcnt = 1 → a.holdSymbol v bad = { a with dh1 := v.getD a.dh1, dcnt := 2, dbad := bad }) ∧
    (a.dcnt = 2 → a.holdSymbol v bad = { a with dh2 := v.getD a.dh2, dcnt := 3, dbad := bad }) := by
  refine ⟨?_, ?_, ?_⟩ <;> intro h <;> cases v <;> simp [Arch.holdSymbol, Arch.setDh, h]

/-! ### dropEvent, resetEvent, presenting -/

@[simp] theorem dropEvent_spc (s : State) : s.dropEvent.spc = s.spc := rfl
@[simp] theorem dropEvent_pending (s : State) : s.dropEvent.pending = s.pending.tail := rfl
@[simp] theorem dropEvent_offered (s : State) : s.dropEvent.offered = s.offered := rfl
@[simp] theorem dropEvent_taken (s : State) : s.dropEvent.taken = s.taken := rfl

@[simp] theorem resetEvent_spc (s : State) : s.resetEvent.spc = Arch.reset := rfl
@[simp] theorem resetEvent_pending (s : State) : s.resetEvent.pending = s.pending := rfl
@[simp] theorem resetEvent_offered (s : State) : s.resetEvent.offered = [] := rfl
@[simp] theorem resetEvent_taken (s : State) : s.resetEvent.taken = [] := rfl

@[simp] theorem presenting_spc (s : State) (words : List CommandWord) : (s.presenting words).spc = s.spc := rfl
@[simp] theorem presenting_offered (s : State) (words : List CommandWord) : (s.presenting words).offered = s.offered := rfl
@[simp] theorem presenting_taken (s : State) (words : List CommandWord) : (s.presenting words).taken = s.taken := rfl
@[simp] theorem presenting_pending (s : State) (words : List CommandWord) :
    (s.presenting words).pending = words.map HostEvent.command := rfl

/-! ### takeResponse -/

/-- The taking of a response when one is offered. -/
theorem takeResponse_cons (s : State) (r : Response) (rest : List Response) (h : s.offered = r :: rest) :
    s.takeResponse = { s with offered := rest, taken := s.taken ++ [r] } := by
  simp [State.takeResponse, h]

/-- Nothing transfers when none is offered. -/
theorem takeResponse_nil (s : State) (h : s.offered = []) : s.takeResponse = s := by
  simp [State.takeResponse, h]

@[simp] theorem takeResponse_spc (s : State) : s.takeResponse.spc = s.spc := by
  unfold State.takeResponse; split <;> rfl

@[simp] theorem takeResponse_pending (s : State) : s.takeResponse.pending = s.pending := by
  unfold State.takeResponse; split <;> rfl

/-- Taking moves a response; none is lost and none made. -/
@[simp] theorem takeResponse_all (s : State) :
    s.takeResponse.taken ++ s.takeResponse.offered = s.taken ++ s.offered := by
  unfold State.takeResponse
  split
  · rfl
  · next r rest h => simp [h]

end Sys2Proof.Laws
end

