-- ==== Sys2Proof/Laws/Ops.lean ====
section
/-! SUPPORT. What the shared operations can answer. -/

namespace Sys2Proof.Laws

open Sys2Proof.Machine

/-- The spec's `step(S, w)` after decoding (R66): the one rule of each command. -/
def rule : Instr → Arch → Arch × Response
  | .symof v => symofRule v
  | .valof c => valofRule c
  | .pack b1 b2 b3 => packRule b1 b2 b3
  | .unpack s1 s2 s3 s4 => unpackRule s1 s2 s3 s4
  | .epush b => epushRule b
  | .eend => eendRule
  | .dpush c => dpushRule c
  | .dend => dendRule

/-- Executing a command is completing what its rule gives: a later proof about `exec` is one about the rule. -/
theorem exec_eq_complete (i : Instr) (s : State) : exec i s = s.complete (rule i s.spc) := by
  cases i <;> rfl

/-- Completing a command answers this next state and no other outcome. -/
theorem complete_next_iff (s t : State) (result : Arch × Response) :
    s.complete result = .next t ↔ t = { s with spc := result.1, offered := s.offered ++ [result.2] } := by
  simp only [State.complete, Host.Outcome.next.injEq]
  exact eq_comm

@[simp] theorem respond_fst (a : Arch) (r : Response) : (a.respond r).1 = a := rfl

@[simp] theorem respond_snd (a : Arch) (r : Response) : (a.respond r).2 = r := rfl

@[simp] theorem raise_fst (a : Arch) (st : Status) : (a.raise st).1 = a := rfl

/-- A failure is the empty response with its code (R145). -/
@[simp] theorem raise_snd (a : Arch) (st : Status) : (a.raise st).2 = ⟨st, 0, 0⟩ := rfl

/-- The sticky flag after a push: set when it was, or when the character is foreign (R25). -/
theorem dbadAfter_eq_true_iff (old : Bool) (v : Option Value) :
    dbadAfter old v = true ↔ old = true ∨ v = none := by
  cases old <;> cases v <;> simp [dbadAfter]

/-- The response of a completed group: a triplet when nothing foreign was met, else nothing (R110). -/
theorem groupResponse_cases (a : Arch) (v : Option Value) :
    (∃ x, v = some x ∧ a.dbad = false ∧ groupResponse a v = Response.triplet (unpackV a.dh0 a.dh1 a.dh2 x)) ∨
    ((a.dbad = true ∨ v = none) ∧ groupResponse a v = Response.nothing) := by
  cases hb : a.dbad <;> cases v <;> simp [groupResponse, hb]

/-- A quartet, a triplet, one item, nothing and a failure are the shapes of R64. -/
theorem quartet_wf (q : Quartet Byte) : (Response.quartet q).wf = true := by
  simp [Response.wf, Response.itemsFit, Response.failureIsEmpty, Response.quartet]

end Sys2Proof.Laws
end

