-- ==== Sys2Proof/Laws/Words.lean ====
section
/-! SUPPORT. A command word's two fields, and when a word is canonical (R62, R65). -/

namespace Sys2Proof.Laws

theorem toNat_commandWord (op : BitVec 3) (arg : BitVec 32) :
    (commandWord op arg).toNat = op.toNat * 2 ^ 32 + arg.toNat := toNat_append op arg

@[simp] theorem opField_commandWord (op : BitVec 3) (arg : BitVec 32) : opField (commandWord op arg) = op := by
  apply BitVec.eq_of_toNat_eq
  rw [opField, toNat_extract, toNat_commandWord]; omega

@[simp] theorem argField_commandWord (op : BitVec 3) (arg : BitVec 32) : argField (commandWord op arg) = arg := by
  apply BitVec.eq_of_toNat_eq
  rw [argField, toNat_extract, toNat_commandWord]; omega

/-- A word whose argument fits below bit `k` is canonical when its opcode uses the bits below `k`. -/
theorem isCanonical_of_arg (op : BitVec 3) (arg : BitVec 32) (k : Nat)
    (hm : usedBits (commandWord op arg) = commandWord 7 (BitVec.ofNat 32 (2 ^ k - 1))) (_hk : k ≤ 32)
    (ha : arg.toNat < 2 ^ k) : isCanonical (commandWord op arg) = true := by
  simp only [isCanonical, clearUnused, hm, beq_iff_eq]
  apply BitVec.eq_of_getLsbD_eq
  intro i hi
  have g (op : BitVec 3) (arg : BitVec 32) : (commandWord op arg).getLsbD i = if i < 32 then arg.getLsbD i else op.getLsbD (i - 32) :=
    BitVec.getLsbD_append
  rw [BitVec.getLsbD_and, g, g]
  split
  · by_cases hik : i < k
    · have hb : (BitVec.ofNat 32 (2 ^ k - 1)).getLsbD i = true := by
        rw [← BitVec.testBit_toNat, BitVec.toNat_ofNat, Nat.testBit_mod_two_pow, Nat.testBit_two_pow_sub_one]
        simp [hik]; omega
      rw [hb, Bool.and_true]
    · have : arg.getLsbD i = false := by
        rw [← BitVec.testBit_toNat]
        exact Nat.testBit_lt_two_pow (Nat.lt_of_lt_of_le ha (Nat.pow_le_pow_right (by omega) (by omega)))
      simp [this]
  · have : i - 32 < 3 := by omega
    have h7 : (7#3).getLsbD (i - 32) = true := by
      have : i - 32 = 0 ∨ i - 32 = 1 ∨ i - 32 = 2 := by omega
      rcases this with h | h | h <;> rw [h] <;> rfl
    show (op.getLsbD (i - 32) && (7#3).getLsbD (i - 32)) = op.getLsbD (i - 32)
    rw [h7, Bool.and_true]

end Sys2Proof.Laws
end

