-- ==== Sys2Proof/Laws/PerInstr.lean ====
section
/-! SUPPORT. Statements made of each instruction as syntax. -/

/-- The word a command is written as has its unused bits 0 (R65, R70). -/
def Sys2Proof.Laws.EncodesCanonically.Statement (i : Sys2Proof.Instr) : Prop :=
  Sys2Proof.isCanonical (Sys2Proof.encode i) = true

namespace Sys2Proof.Laws

theorem EncodesCanonically.symof (v : Value) : EncodesCanonically.Statement (.symof v) :=
  isCanonical_of_arg _ _ 6 (by simp [usedBits]; rfl) (by omega) (by simp; omega)

theorem EncodesCanonically.valof (c : Byte) : EncodesCanonically.Statement (.valof c) :=
  isCanonical_of_arg _ _ 8 (by simp [usedBits]; rfl) (by omega) (by simp; omega)

theorem EncodesCanonically.pack (b1 b2 b3 : Byte) : EncodesCanonically.Statement (.pack b1 b2 b3) :=
  isCanonical_of_arg _ _ 24 (by simp [usedBits]; rfl) (by omega) (by rw [toNat_fourBytes]; simp; omega)

theorem EncodesCanonically.unpack (s1 s2 s3 s4 : Byte) : EncodesCanonically.Statement (.unpack s1 s2 s3 s4) :=
  isCanonical_of_arg _ _ 32 (by simp [usedBits]; rfl) (by omega) (by omega)

theorem EncodesCanonically.epush (b : Byte) : EncodesCanonically.Statement (.epush b) :=
  isCanonical_of_arg _ _ 8 (by simp [usedBits]; rfl) (by omega) (by simp; omega)

theorem EncodesCanonically.eend : EncodesCanonically.Statement .eend :=
  isCanonical_of_arg _ _ 0 (by simp [usedBits]; rfl) (by omega) (by simp)

theorem EncodesCanonically.dpush (c : Byte) : EncodesCanonically.Statement (.dpush c) :=
  isCanonical_of_arg _ _ 8 (by simp [usedBits]; rfl) (by omega) (by simp; omega)

theorem EncodesCanonically.dend : EncodesCanonically.Statement .dend :=
  isCanonical_of_arg _ _ 0 (by simp [usedBits]; rfl) (by omega) (by simp)

end Sys2Proof.Laws
end

