-- ==== Sys2Proof/Laws/Run.lean ====
section
/-! SUPPORT. Runs: the host's run is this one, runs compose, and a presented word is executed. -/

namespace Sys2Proof.Laws

open Sys2Proof.Machine

@[simp] theorem run_zero (s : State) : run 0 s = .next s := rfl

/-- A run begins with a step. -/
theorem run_succ_of_step {s t : State} (k : Nat) (h : step s = .next t) : run (k + 1) s = run k t := by
  simp [run, h]

/-- Runs compose. -/
theorem run_add {s t : State} (m n : Nat) (h : run m s = .next t) : run (m + n) s = run n t := by
  induction m generalizing s with
  | zero => cases h; simp
  | succ m ih =>
    rw [Nat.succ_add]
    cases hs : step s with
    | next u => rw [run_succ_of_step _ hs]; exact ih (by rw [← run_succ_of_step _ hs]; exact h)
    | fault r => cases r
    | refused r => simp [run, hs] at h

/-- The host's run of any machine goes on after a step. -/
theorem host_run_next (M : Host.Core) {s t : M.State} (k : Nat) (h : M.step s = .next t) :
    M.run (k + 1) s = M.run k t := by
  simp [Host.Core.run, h]

/-- The host's run of any machine stops at a refusal. -/
theorem host_run_refused (M : Host.Core) {s : M.State} {r : M.Refusal} (k : Nat) (h : M.step s = .refused r) :
    M.run (k + 1) s = .refused r := by
  simp [Host.Core.run, h]

/-- The host's run of `core` is `run`. -/
theorem core_run (k : Nat) (s : State) : Host.Core.run Sys2Proof.core k s = run k s := by
  induction k generalizing s with
  | zero => rfl
  | succ k ih =>
    cases hs : step s with
    | next t => exact (host_run_next _ k hs).trans (by rw [ih, run_succ_of_step k hs])
    | fault r => cases r
    | refused r => exact (host_run_refused _ k hs).trans (show run (k + 1) s = .refused r by simp [run, hs]).symm

/-- The first presented word is executed, the others still to come. -/
theorem step_presenting_cons (s : State) (w : CommandWord) (words : List CommandWord) :
    step (s.presenting (w :: words)) = exec (decode w) (s.presenting words) := rfl

/-- A run over a list of commands in the words of R66: the final state and the responses. -/
def ruleRun : List Instr → Arch → Arch × List Response
  | [], a => (a, [])
  | i :: is, a =>
    let first := rule i a
    let others := ruleRun is first.1
    (others.1, first.2 :: others.2)

@[simp] theorem ruleRun_nil (a : Arch) : ruleRun [] a = (a, []) := rfl

@[simp] theorem ruleRun_cons (i : Instr) (is : List Instr) (a : Arch) :
    ruleRun (i :: is) a = ((ruleRun is (rule i a).1).1, (rule i a).2 :: (ruleRun is (rule i a).1).2) := rfl

/-- Runs over lists compose: the second begins where the first ends. -/
theorem ruleRun_append (is js : List Instr) (a : Arch) :
    ruleRun (is ++ js) a =
      ((ruleRun js (ruleRun is a).1).1, (ruleRun is a).2 ++ (ruleRun js (ruleRun is a).1).2) := by
  induction is generalizing a with
  | nil => simp
  | cons i is ih => simp [ih]

@[simp] theorem ruleRun_length (is : List Instr) (a : Arch) : (ruleRun is a).2.length = is.length := by
  induction is generalizing a with
  | nil => rfl
  | cons i is ih => simp [ih]

/-- The machine's steps over presented words are the spec's run (R66): same final state, same responses, and the
ports otherwise as they were. -/
theorem run_presenting (s : State) (words : List CommandWord) :
    run words.length (s.presenting words) = .next
      { spc := (ruleRun (words.map decode) s.spc).1
        pending := []
        offered := s.offered ++ (ruleRun (words.map decode) s.spc).2
        taken := s.taken } := by
  induction words generalizing s with
  | nil => simp [State.presenting]
  | cons w ws ih =>
    have h : step (s.presenting (w :: ws)) =
        .next (State.presenting { s with
          spc := (rule (decode w) s.spc).1, offered := s.offered ++ [(rule (decode w) s.spc).2] } ws) := by
      rw [step_presenting_cons, exec_eq_complete]; rfl
    rw [List.length_cons, run_succ_of_step _ h, ih]
    simp

end Sys2Proof.Laws
end

