-- ==== Sys2Proof/Laws/Triplet.lean ====
section
/-! SUPPORT. What each lane of PackV and each byte of UnpackV is worth as a number (R94). -/

namespace Sys2Proof.Laws

/-- The four values of PackV by division and remainder: in no `x | y` of R90 have the operands a set bit in common. -/
theorem packV_toNat (b1 b2 b3 : Byte) :
    (packV b1 b2 b3).i1.toNat = b1.toNat / 4 ∧
    (packV b1 b2 b3).i2.toNat = b1.toNat % 4 * 16 + b2.toNat / 16 ∧
    (packV b1 b2 b3).i3.toNat = b2.toNat % 16 * 4 + b3.toNat / 64 ∧
    (packV b1 b2 b3).i4.toNat = b3.toNat % 64 := by
  have e1 : b1.toNat &&& 0b11 = b1.toNat % 4 := and_mask _ 2
  have e2 : b2.toNat &&& 0b1111 = b2.toNat % 16 := and_mask _ 4
  have e3 (x : Nat) : x &&& 0b111111 = x % 64 := and_mask _ 6
  have s1 : b1.toNat >>> 2 = b1.toNat / 4 := Nat.shiftRight_eq_div_pow _ 2
  have s2 : b2.toNat >>> 4 = b2.toNat / 16 := Nat.shiftRight_eq_div_pow _ 4
  have s3 : b3.toNat >>> 6 = b3.toNat / 64 := Nat.shiftRight_eq_div_pow _ 6
  have o2 := or_eq_add (a := b1.toNat % 4) (b := b2.toNat / 16) 4 (by omega)
  have o3 := or_eq_add (a := b2.toNat % 16) (b := b3.toNat / 64) 2 (by omega)
  simp only [packV, e1, e2, e3, s1, s2, s3, o2, o3, BitVec.toNat_ofNat]
  omega

/-- The three bytes of UnpackV by division and remainder (R91, R94). -/
theorem unpackV_toNat (c1 c2 c3 c4 : Value) :
    (unpackV c1 c2 c3 c4).b1.toNat = c1.toNat * 4 + c2.toNat / 16 ∧
    (unpackV c1 c2 c3 c4).b2.toNat = c2.toNat % 16 * 16 + c3.toNat / 4 ∧
    (unpackV c1 c2 c3 c4).b3.toNat = c3.toNat % 4 * 64 + c4.toNat := by
  have m2 : c2.toNat <<< 4 &&& 0b11110000 = (c2.toNat % 16) <<< 4 := and_mask_shifted _ 4 4
  have m3 : c3.toNat <<< 6 &&& 0b11000000 = (c3.toNat % 4) <<< 6 := and_mask_shifted _ 2 6
  have a2 (x : Nat) : x &&& 0b11 = x % 4 := and_mask _ 2
  have a4 (x : Nat) : x &&& 0b1111 = x % 16 := and_mask _ 4
  have a6 (x : Nat) : x &&& 0b111111 = x % 64 := and_mask _ 6
  have s2 : c2.toNat >>> 4 = c2.toNat / 16 := Nat.shiftRight_eq_div_pow _ 4
  have s3 : c3.toNat >>> 2 = c3.toNat / 4 := Nat.shiftRight_eq_div_pow _ 2
  have o1 := or_eq_add (a := c1.toNat) (b := c2.toNat / 16 % 4) 2 (by omega)
  have o2 := or_eq_add (a := c2.toNat % 16) (b := c3.toNat / 4 % 16) 4 (by omega)
  have o3 := or_eq_add (a := c3.toNat % 4) (b := c4.toNat % 64) 6 (by omega)
  simp only [unpackV, m2, m3, a2, a4, a6, s2, s3, o1, o2, o3, BitVec.toNat_ofNat]
  omega

/-- Triplets are equal when their bytes are worth the same. -/
theorem triplet_eq_of_toNat {t u : Triplet} (h1 : t.b1.toNat = u.b1.toNat) (h2 : t.b2.toNat = u.b2.toNat)
    (h3 : t.b3.toNat = u.b3.toNat) : t = u := by
  obtain ⟨_, _, _⟩ := t
  obtain ⟨_, _, _⟩ := u
  simp_all [BitVec.toNat_inj]

/-- Quartets of values are equal when their lanes are worth the same. -/
theorem quartet_eq_of_toNat {n : Nat} {p q : Quartet (BitVec n)} (h1 : p.i1.toNat = q.i1.toNat)
    (h2 : p.i2.toNat = q.i2.toNat) (h3 : p.i3.toNat = q.i3.toNat) (h4 : p.i4.toNat = q.i4.toNat) : p = q := by
  obtain ⟨_, _, _, _⟩ := p
  obtain ⟨_, _, _, _⟩ := q
  simp_all [BitVec.toNat_inj]

end Sys2Proof.Laws
end

