-- ==== Sys2Proof/Tests/Slice0.lean ====
section
/-! SUPPORT. Tests against the words, responses and states that spec/95_test_vectors.md and the rules' own examples
give, and a witness for the hypotheses of every obligation that has some. -/

namespace Sys2Proof.Tests

open Sys2Proof.Machine

/-- A machine with this architectural state and nothing on its ports. -/
def at_ (a : Arch) : State := { State.reset with spc := a }

/-- The state `(eh0, eh1, ecnt | dh0, dh1, dh2, dcnt, dbad)` in the notation of 95_test_vectors.md. -/
def arch (eh0 eh1 : Byte) (ecnt : BitVec 2) (dh0 dh1 dh2 : Value) (dcnt : BitVec 2) (dbad : Bool) : Arch :=
  { eh0 := eh0, eh1 := eh1, ecnt := ecnt, dh0 := dh0, dh1 := dh1, dh2 := dh2, dcnt := dcnt, dbad := dbad }

/-- The next state, when there is one. -/
def next? (o : Host.Outcome State Fault Refusal) : Option State :=
  match o with
  | .next t => some t
  | .fault _ => none
  | .refused _ => none

/-- The last response word on the port after one command from the architectural state `a`. -/
def answer (a : Arch) (i : Instr) : Option ResponseWord :=
  (next? (exec i (at_ a))).bind fun t => t.offered.getLast?.map responseWord

/-- The architectural state after one command. -/
def after (a : Arch) (i : Instr) : Option Arch := (next? (exec i (at_ a))).map State.spc

/-! ### Well-formedness: an ill-formed term for each check (R64, R65, R68) -/

theorem test_wf_refuses_count_2 : Response.wf ⟨.ok, 2, 0⟩ = false := by decide

theorem test_wf_refuses_datum_without_item : Response.wf ⟨.ok, 0, 1⟩ = false := by decide

theorem test_wf_refuses_wide_single_item : Response.wf ⟨.ok, 1, 0x100⟩ = false := by decide

theorem test_wf_refuses_wide_triplet : Response.wf ⟨.ok, 3, 0x01000000⟩ = false := by decide

theorem test_wf_refuses_failure_with_items : Response.wf ⟨.invalidSymbol, 4, 0x30303030⟩ = false := by decide

theorem test_wf_takes_padded_quadruplet : Response.wf ⟨.ok, 4, 0x52367930⟩ = true := by decide

theorem test_every_kind_of_command_is_wf :
    ([.symof 63, .valof 0xFF, .pack 1 2 3, .unpack 1 2 3 4, .epush 0, .eend, .dpush 0x80, .dend] : List Instr).all
      Instr.wf = true := by decide

theorem test_word_with_unused_bits_is_not_canonical : isCanonical 0x2AB343132 = false := by decide

theorem test_reset_is_not_one_of_the_patterns_R23_excludes : ¬ (arch 0 0 3 0 0 0 0 false).encWf := by decide

theorem test_stale_hold_register_breaks_R24 : ¬ (arch 0 0 0 18 0 5 2 false).decWf := by decide

/-! ### Decoding: words written out bit by bit from R62, R63, R67 -/

theorem test_decode_symof : decode 0b000_00000000000000000000000000_001101 = .symof 13 := by decide

theorem test_decode_symof_ignored : decode 0b000_11111111111111111111111111_001101 = .symof 13 := by decide

theorem test_decode_valof : decode 0b001_000000000000000000000000_01101111 = .valof 0x6F := by decide

theorem test_decode_pack : decode 0b010_10101011_00110100_00110001_00110010 = .pack 0x34 0x31 0x32 := by decide

theorem test_decode_unpack : decode 0b011_01000100_00110011_00110100_01101111 = .unpack 0x44 0x33 0x34 0x6F := by decide

theorem test_decode_epush : decode 0b100_000000000000000000000001_01001000 = .epush 0x48 := by decide

theorem test_decode_eend : decode 0b101_00000000000000000000000000000001 = .eend := by decide

theorem test_decode_dpush : decode 0b110_100000000000000000000000_01001001 = .dpush 0x49 := by decide

theorem test_decode_dend : decode 0b111_11111111111111111111111111111111 = .dend := by decide

/-- The word of R70's example. -/
theorem test_encode_pack : encode (.pack 0x34 0x31 0x32) = 0x200343132 := by decide

theorem test_number_of_36_bits_is_refused : decodeTableWord 40 0x800000000 = none := by decide

theorem test_table_word_is_decoded : decodeTableWord 40 0x600000049 = some (.dpush 0x49) := by decide

/-- R70's example response. -/
theorem test_response_word : responseWord ⟨.ok, 4, 0x4433346F⟩ = 0x044433346F := by decide

theorem test_response_word_of_status_3_is_none : readResponse 0x1800000000 = none := by decide

theorem test_trace_text : traceText (.unpack 68 51 52 111) = "UNPACK 68, 51, 52, 111" := by decide

/-! ### Commands (95_test_vectors.md) -/

/-- V7 and V6: `symbol_of` is not monotonic. -/
theorem test_symof_62 : answer Arch.reset (.symof 62) = some 0x010000002D := by decide

theorem test_symof_61 : answer Arch.reset (.symof 61) = some 0x010000007A := by decide

/-- V10 and V11: a value 0 is no failure, and a foreign code is never 0. -/
theorem test_valof_zero : answer Arch.reset (.valof 0x30) = some 0x0100000000 := by decide

theorem test_valof_foreign : answer Arch.reset (.valof 0x60) = some 0x1000000000 := by decide

/-- V18 and V19. -/
theorem test_pack_JM5k : answer Arch.reset (.pack 0x4D 0x61 0x6E) = some 0x044A4D356B := by decide

theorem test_pack_lane_2 : answer Arch.reset (.pack 0x03 0xF0 0x00) = some 0x04305F3030 := by decide

/-- V24 and V25. -/
theorem test_unpack_4444 : answer Arch.reset (.unpack 0x34 0x34 0x34 0x34) = some 0x0300104104 := by decide

theorem test_unpack_foreign_last : answer Arch.reset (.unpack 0x44 0x33 0x34 0x3D) = some 0x1000000000 := by decide

/-- P1 steps 3 and 2. -/
theorem test_epush_completes : answer (arch 0x48 0x65 2 0 0 0 0 false) (.epush 0x6C) = some 0x0449364C69 := by decide

theorem test_epush_holds : after (arch 0x48 0 1 0 0 0 0 false) (.epush 0x65) = some (arch 0x48 0x65 2 0 0 0 0 false) := by
  decide

/-- V28 and P4 step 6: the DEC fields stay. -/
theorem test_eend_two_fabricated : answer (arch 0xFF 0 1 0 0 0 0 false) .eend = some 0x045F6D3030 := by decide

theorem test_eend_leaves_dec :
    after (arch 0x48 0x69 2 18 6 21 3 false) .eend = some (arch 0 0 0 18 6 21 3 false) := by decide

/-- P2 step 4 and P3c: a foreign character at phase 1 leaves `dh[1] = 0` and sets `dbad`. -/
theorem test_dpush_completes : answer (arch 0 0 0 18 6 21 3 false) (.dpush 0x69) = some 0x030048656C := by decide

theorem test_dpush_foreign : after (arch 0 0 0 36 0 0 1 false) (.dpush 0x20) = some (arch 0 0 0 36 0 0 2 true) := by decide

/-- V40 (both conditions hold, length wins) and V46. -/
theorem test_dend_length_wins : answer (arch 0 0 0 36 37 0 3 true) .dend = some 0x0800000000 := by decide

theorem test_dend_invalid : answer (arch 0 0 0 0 0 0 0 true) .dend = some 0x1000000000 := by decide

/-! ### Steps -/

theorem test_withFetchWord_runs_first :
    (next? (step (State.reset.withFetchWord 40 0x400000048))).map State.spc = some (arch 0x48 0 1 0 0 0 0 false) := by
  decide

/-- P7: a reset in the middle loses the held bytes and gives no response. -/
theorem test_reset_event :
    next? (step { at_ (arch 0x6C 0x6F 2 0 0 0 0 false) with pending := [.reset, .take] }) =
      some { State.reset with pending := [.take] } := by decide

/-! ### The buffer functions and the host's (S1, S3, V36, V42) -/

theorem test_encode_buffer_lost_length : encodeBuffer [0x4D] = [0x4A, 0x47, 0x30, 0x30] := by decide

theorem test_decode_buffer_abc : decodeBuffer [0x61, 0x62, 0x63] = .err .malformedLength := by decide

theorem test_decode_buffer_native :
    decodeBuffer [0x2D, 0x6C, 0x6C, 0x79] = .ok [0xFA, 0xFB, 0xFC] := by decide

/-- The first group of the document's hex vector: "A " is `41 20` in hex. -/
theorem test_hex_encode : highFirstHex [0x41, 0x20] = [0x34, 0x31, 0x32, 0x30] := by decide

/-- S1: the text "A -> B: Hello" and its encoded form, marker included. -/
theorem test_hex_vector :
    hexMarker ++ encodeBuffer (highFirstHex [0x41, 0x20, 0x2D, 0x3E, 0x20, 0x42, 0x3A, 0x20, 0x48, 0x65, 0x6C, 0x6C, 0x6F]) =
      [0x7E, 0x68, 0x44, 0x33, 0x34, 0x6F, 0x43, 0x33, 0x39, 0x61, 0x43, 0x73, 0x4B, 0x6F, 0x43, 0x33,
       0x47, 0x6F, 0x43, 0x73, 0x34, 0x6F, 0x43, 0x33, 0x47, 0x75, 0x44, 0x5A, 0x4B, 0x73, 0x4F, 0x70,
       0x50, 0x5A, 0x44, 0x63, 0x4F, 0x30] := by
  decide

theorem test_hex_decode_rejects_upper_case : highFirstBytes [0x34, 0x41] = none := by decide

/-- The first example of RFC 3629 section 7: the text "A≢Α.". -/
theorem test_utf8_bytes :
    utf8Bytes ['A', '\u2262', '\u0391', '.'] = [0x41, 0xE2, 0x89, 0xA2, 0xCE, 0x91, 0x2E] := by decide

/-- By the byte table of RFC 3629 section 4: C0 begins nothing (C0 80 would be a longer form of 0), A1 does not follow ED
(a surrogate), nor 90 F4 (above 10FFFF). -/
theorem test_utf8_refuses :
    validUtf8 [0xC0, 0x80] = false ∧ validUtf8 [0xED, 0xA1, 0x8C] = false ∧ validUtf8 [0xF4, 0x90, 0x80, 0x80] = false ∧
    validUtf8 [0x80] = false ∧ validUtf8 [0xE2, 0x89] = false := by decide

theorem test_trim_eats_real_zeros : trimTrailingZeroBytes [0x41, 0, 0, 0] = [0x41] := by decide

/-! ### Witnesses: states and operands that meet the hypotheses of the obligations -/

/-- A state as after P4 step 5, with commands still to come and responses on the port. -/
def busy : State :=
  { spc := arch 0x48 0x69 2 18 6 21 3 false
    pending := [.command 0x500000000, .take, .reset]
    offered := [⟨.ok, 0, 0⟩, ⟨.ok, 3, 0x48656C⟩]
    taken := [⟨.ok, 0, 0⟩] }

theorem witness_UnusedBitsAreIgnored :
    (0x00000000D : CommandWord) &&& usedBits 0x00000000D = 0x0FFFFFFCD &&& usedBits 0x00000000D := by decide

theorem witness_ResponseWordLayout :
    readResponse 0x0300343132 = some ⟨.ok, 3, 0x343132⟩ ∧ (0x0300343132 : ResponseWord).extractLsb' 35 2 = 0 ∧
    (0x0800000000 : ResponseWord).extractLsb' 35 2 = 1 ∧ (0x1000000000 : ResponseWord).extractLsb' 35 2 = 2 := by decide

theorem witness_SymbolOfIsTheTable : symbolOf 63 = symbolOf 63 ∧ symbolOf 63 = 0x5F := by decide

theorem witness_ValueOfIsTheInverse :
    isForeign 0x2C = true ∧ isForeign 0x2D = false ∧ isForeign 0x2E = true ∧ isForeign 0x7B = true ∧
    isForeign 0xFF = true ∧ (0x3D : Byte) ∈ ([0x44, 0x33, 0x34, 0x3D] : List Byte) ∧ isForeign 0x3D = true := by decide

theorem witness_DeliveredCharactersAreAlphabet : Instr.symof 13 = .symof 13 := by decide

theorem witness_PackAndUnpackAreInverse : unpack 0x44 0x33 0x34 0x6F = some ⟨0x34, 0x31, 0x32⟩ := by decide

theorem witness_PaddedQuadruplet :
    (at_ (arch 0xFF 0 1 0 0 0 0 false)).spc.ecnt = 1 ∧ (at_ (arch 0xFF 0xFF 2 0 0 0 0 false)).spc.ecnt = 2 := by decide

theorem witness_words_of_each_opcode :
    (0x0FFFFFFFF : CommandWord).extractLsb' 32 3 = 0b000 ∧ (0x100000000 : CommandWord).extractLsb' 32 3 = 0b001 ∧
    (0x2FFFFFFFF : CommandWord).extractLsb' 32 3 = 0b010 ∧ (0x300000000 : CommandWord).extractLsb' 32 3 = 0b011 ∧
    (0x4FFFFFFFF : CommandWord).extractLsb' 32 3 = 0b100 ∧ (0x500000000 : CommandWord).extractLsb' 32 3 = 0b101 ∧
    (0x6FFFFFFFF : CommandWord).extractLsb' 32 3 = 0b110 ∧ (0x7FFFFFFFF : CommandWord).extractLsb' 32 3 = 0b111 := by
  decide

theorem witness_ValofResult : valueOf 0x7E = none ∧ valueOf 0x2D = some 62 := by decide

theorem witness_UnpackResult :
    (valueOf 0x44 = none ∨ valueOf 0x33 = none ∨ valueOf 0x3D = none ∨ valueOf 0x6F = none) ∧
    valueOf 0x44 = some 13 ∧ valueOf 0x33 = some 3 ∧ valueOf 0x34 = some 4 ∧ valueOf 0x6F = some 50 := by decide

theorem witness_EpushResult :
    State.reset.spc.ecnt = 0 ∧ (at_ (arch 0x48 0 1 0 0 0 0 false)).spc.ecnt = 1 ∧ busy.spc.ecnt = 2 := by decide

theorem witness_EendResult :
    (State.reset.spc.ecnt = 0 ∧ State.reset.spc.encWf) ∧ (at_ (arch 0x48 0 1 0 0 0 0 false)).spc.ecnt = 1 ∧
    busy.spc.ecnt = 2 ∧ busy.spc.encWf := by decide

theorem witness_DpushResult :
    State.reset.spc.dcnt = 0 ∧ (at_ (arch 0 0 0 18 0 0 1 false)).spc.dcnt = 1 ∧
    (at_ (arch 0 0 0 18 6 0 2 false)).spc.dcnt = 2 ∧
    (busy.spc.dcnt = 3 ∧ busy.spc.dbad = false ∧ valueOf 0x69 = some 44) ∧
    (busy.spc.dcnt = 3 ∧ (busy.spc.dbad = true ∨ valueOf 0x20 = none)) ∧
    ((arch 0 0 0 36 0 39 3 true).dcnt = 3 ∧ ((arch 0 0 0 36 0 39 3 true).dbad = true ∨ valueOf 0x30 = none)) := by decide

theorem witness_LeafCommandsAreStateless : (Instr.unpack 0x44 0x33 0x34 0x6F).isLeaf = true ∧ busy.spc.encWf := by decide

theorem witness_UnitsAreDisjoint :
    ((Instr.dpush 0x49).family ≠ .enc ∧ (Instr.epush 1).family ≠ .dec) ∧
    ((Instr.epush 1).family = .enc → busy.spc.encPart = (arch 0x48 0x69 2 0 0 0 0 true).encPart) ∧
    ((Instr.epush 1).family = .dec → busy.spc.decPart = (arch 0x48 0x69 2 0 0 0 0 true).decPart) := by decide

theorem witness_CommandsCommute :
    ((Instr.eend).family = .enc ∧ (Instr.dend).family = .dec) ∧ (Instr.symof 0).isLeaf = true := by decide

theorem witness_MalformedLengthCause : (dendRule (arch 0 0 0 36 0 0 1 true)).2.st = .malformedLength := by decide

theorem witness_InvalidSymbolCause :
    (valofRule 0x7E Arch.reset).2.st = .invalidSymbol ∧ Instr.valof 0x7E ≠ .dend ∧
    (dendRule (arch 0 0 0 0 0 0 0 true)).2.st = .invalidSymbol := by decide

theorem witness_DbadIsSticky :
    busy.spc.dbad = false ∧ (arch 0 0 0 0 0 0 0 true).dbad = true ∧ Instr.eend ≠ .dend ∧ (∀ c, Instr.eend ≠ .dpush c) ∧
    (busy.spc.dcnt = 3 ∧ (busy.spc.dbad || isForeign 0x20) = true) ∧
    ((arch 0 0 0 0 0 0 0 true).dcnt = 0 ∧ (arch 0 0 0 0 0 0 0 true).dbad = true) ∧
    ({ busy with pending := [.reset] } : State).pending = .reset :: [] := by decide

theorem witness_MixedWidthAgreement :
    (at_ (arch 0 0 0 18 6 0 2 true)).spc.encIdle ∧ (at_ (arch 0x48 0 1 0 0 0 0 false)).spc.decIdle ∧
    (∀ c ∈ ([0x49, 0x36, 0x4C, 0x69] : List Byte), isForeign c = false) := by decide

theorem witness_StepRunsTheDecodedCommand : busy.pending = .command 0x500000000 :: [.take, .reset] := by decide

theorem witness_PortEventsMoveResponses :
    ({ busy with pending := [.take] }.pending = .take :: [] ∧ busy.offered = ⟨.ok, 0, 0⟩ :: [⟨.ok, 3, 0x48656C⟩]) ∧
    ({ State.reset with pending := [.take] }.pending = .take :: [] ∧ State.reset.offered = []) ∧
    State.reset.pending = [] := by decide

theorem witness_ResetEventGivesS0 : ({ busy with pending := [.reset] } : State).pending = .reset :: [] := by decide

theorem witness_ResponsesLeaveInCommandOrder :
    ∀ e ∈ ([.command 0x600000049, .take, .take, .command 0x700000000] : List HostEvent), e.isReset = false := by decide

theorem witness_EveryCommandIsAnswered : (at_ busy.spc).offered = [] := by decide

theorem witness_StepKeepsTheInvariant :
    busy.Inv ∧ next? (step busy) = some { busy with
      spc := arch 0 0 0 18 6 21 3 false
      pending := [.take, .reset]
      offered := busy.offered ++ [⟨.ok, 4, 0x49366130⟩] } := by decide

theorem witness_EndCommandsLeaveUnitsIdle :
    busy.spc.encWf ∧ busy.spc.ecnt = 2 ∧ (busy.spc.dcnt = 3 ∧ busy.spc.dbad = false ∧ isForeign 0x69 = false) ∧
    (State.reset.Inv ∧ State.reset.spc.ecnt = 0 ∧ State.reset.spc.dcnt = 0 ∧ State.reset.spc.dbad = false) := by decide

theorem witness_DecodeBufferVerdicts :
    ([0x61, 0x62, 0x20] : List Byte).length % 4 ≠ 0 ∧
    (([0x61, 0x62, 0x20, 0x64] : List Byte).length % 4 = 0 ∧
      ∃ c ∈ ([0x61, 0x62, 0x20, 0x64] : List Byte), isForeign c = true) ∧
    (([0x49, 0x36, 0x4C, 0x69] : List Byte).length % 4 = 0 ∧
      ∀ c ∈ ([0x49, 0x36, 0x4C, 0x69] : List Byte), isForeign c = false) := by decide

theorem witness_EncoderRefinement : (at_ (arch 0 0 0 18 6 0 2 true)).spc.encIdle := by decide

/-- The string of V41, "I6Lia d0": its second group holds the foreign character. -/
theorem witness_DecoderRefinement :
    (at_ (arch 0x48 0x69 2 0 0 0 0 false)).spc.decIdle ∧
    firstForeignGroup [0x49, 0x36, 0x4C, 0x69, 0x61, 0x20, 0x64, 0x30] = some 1 ∧
    (3 % 4 = 3 ∧ 3 / 4 < 1) ∧ (7 % 4 = 3 ∧ 1 ≤ 7 / 4) ∧ firstForeignGroup [0x49, 0x36, 0x4C, 0x69] = none := by decide

theorem witness_StreamingPrefix :
    (at_ (arch 0 0 0 18 6 0 2 true)).spc.encIdle ∧ State.reset.spc.decIdle ∧
    (∀ c ∈ ([0x49, 0x36, 0x4C, 0x69, 0x2D] : List Byte), isForeign c = false) := by decide

theorem witness_TransactionLengths :
    State.reset.spc.encIdle ∧ State.reset.spc.decIdle ∧
    decodeResult [.nothing, .nothing, .nothing, .triplet ⟨0x48, 0x65, 0x6C⟩] .nothing = .ok [0x48, 0x65, 0x6C] := by decide

theorem witness_EncodeOfDecodedString : decodeBuffer [0x49, 0x36, 0x4C, 0x69] = .ok [0x48, 0x65, 0x6C] := by decide

theorem witness_LostLength :
    ([0x41] : List Byte).length % 3 = 1 ∧ ([0x4D, 0x61] : List Byte).length % 3 = 2 ∧
    ([0x41, 0] : List Byte).length = ([0x41, 0] : List Byte).length ∧ encodeBuffer [0x41, 0] = [0x47, 0x47, 0x30, 0x30] := by
  decide

theorem witness_InterleavingIsolation :
    (Family.enc = .enc ∨ Family.enc = .dec) ∧ (Family.dec = .enc ∨ Family.dec = .dec) ∧
    familyWords .enc [0x400000048, 0x600000049, 0x10000007E, 0x500000000] = [0x400000048, 0x500000000] := by decide

theorem witness_CarriedDbadFailsTheNextString : (at_ (arch 0 0 0 0 0 0 0 true)).spc.dbad = true := by decide

theorem witness_TrimIsTheLongestPrefix :
    ([0x36, 0x66] : List Byte) <+: [0x36, 0x66, 0] ∧ ([0x36, 0x66] : List Byte).getLast? ≠ some 0 := by decide

theorem witness_HexCodecContract :
    ([0x34] : List Byte).length % 2 = 1 ∧ (∃ c ∈ ([0x34, 0x47] : List Byte), isHexDigit c = false) := by decide

/-! A codec with the contract of R133 and R134, other than the one of HostBackend.lean: the low digit of a byte first. -/

theorem isHexDigit_hexDigit (d : BitVec 4) : isHexDigit (hexDigit d) = true := by revert d; decide

theorem hexValue_hexDigit (d : BitVec 4) : hexValue (hexDigit d) = some d := by revert d; decide

theorem hexValue_of_not_isHexDigit {c : Byte} (h : isHexDigit c = false) : hexValue c = none := by
  simp only [isHexDigit, Bool.or_eq_false_iff, Bool.and_eq_false_iff, decide_eq_false_iff_not] at h
  simp only [hexValue]
  rw [if_neg (by omega), if_neg (by omega)]

def lowFirstHex : List Byte → List Byte
  | [] => []
  | b :: rest => hexDigit (b.extractLsb' 0 4) :: hexDigit (b.extractLsb' 4 4) :: lowFirstHex rest

def lowFirstBytes : List Byte → Option (List Byte)
  | [] => some []
  | [_] => none
  | l :: h :: rest =>
    match hexValue h, hexValue l with
    | some dh, some dl => (lowFirstBytes rest).map ((dh ++ dl) :: ·)
    | _, _ => none

theorem nibbles_of_byte (b : Byte) : (b.extractLsb' 4 4 ++ b.extractLsb' 0 4 : BitVec 8) = b := by
  revert b; decide

def toyHexCodec : HexCodec where
  hexEncode := lowFirstHex
  hexDecode := lowFirstBytes
  length_hexEncode text := by
    induction text with
    | nil => rfl
    | cons b rest ih => simp [lowFirstHex, ih]; omega
  isHexDigit_hexEncode text := by
    induction text with
    | nil => simp [lowFirstHex]
    | cons b rest ih => simp [lowFirstHex, isHexDigit_hexDigit]; exact ih
  hexDecode_hexEncode text := by
    induction text with
    | nil => rfl
    | cons b rest ih => simp [lowFirstHex, lowFirstBytes, hexValue_hexDigit, ih, nibbles_of_byte]
  hexDecode_odd y := by
    induction y using lowFirstBytes.induct <;> grind [lowFirstBytes]
  hexDecode_nonDigit y := by
    rintro ⟨c, hc, hd⟩
    have := hexValue_of_not_isHexDigit hd
    induction y using lowFirstBytes.induct <;> grind [lowFirstBytes]

theorem witness_HexBackendRoundTrip : toyHexCodec.hexEncode [0x41] = [0x31, 0x34] := by decide

theorem witness_HexRoundTripOnTheMachine : State.reset.spc.encIdle ∧ State.reset.spc.decIdle := by decide

/-- A codec with the property R131 names: the end is marked by a byte 1. -/
def toyCodec : DeflateCodec where
  compress u := u ++ [1]
  decompress z :=
    match z.reverse.dropWhile (· == 0) with
    | [] => none
    | _ :: rest => some rest.reverse
  absorbsPadding u p hp := by
    have h : p = 0 ∨ p = 1 ∨ p = 2 := by omega
    rcases h with rfl | rfl | rfl <;> simp [zeros, List.replicate, List.dropWhile]

theorem witness_DeflateBackendRoundTrip :
    toyCodec.compress [] = [1] ∧ validUtf8 [0x41, 0xC3, 0xA9] = true ∧ validUtf8 [0x41, 0xC3] = false := by decide

theorem witness_ValidUtf8IsTheUtf8OfTexts :
    validUtf8 [0xF4, 0x8F, 0xBF, 0xBF] = true ∧ utf8Bytes [Char.ofNat 0x10FFFF] = [0xF4, 0x8F, 0xBF, 0xBF] := by decide

/-- S3 and S6 among them: "abc", and "4444", which decodes to 10 41 04. -/
theorem witness_BackendsSurfaceFailures :
    decodeBuffer [0x61, 0x62, 0x63] = .err .malformedLength ∧
    (decodeBuffer [0x34, 0x34, 0x34, 0x34] = .ok [0x10, 0x41, 0x04] ∧
      (trimTrailingZeroBytes [0x10, 0x41, 0x04]).length % 2 = 1 ∧
      ∃ c ∈ trimTrailingZeroBytes [0x10, 0x41, 0x04], isHexDigit c = false) ∧
    (decodeBuffer [] = .ok [] ∧ toyCodec.decompress [] = none) ∧
    (toyCodec.decompress [0x10, 0x41, 0x04] = some [0x10, 0x41] ∧ validUtf8 [0xFF] = false ∧
      decodeBuffer [0x5F, 0x6D, 0x34, 0x30] = .ok [0xFF, 0x01, 0x00] ∧
      toyCodec.decompress [0xFF, 0x01, 0x00] = some [0xFF]) := by decide

theorem witness_StepAdvancesTheHistory :
    busy.pending = .command 0x500000000 :: [.take, .reset] ∧
    busy.spc = archOfHistory [0x48, 0x69] [0x49, 0x36, 0x4C] := by decide

end Sys2Proof.Tests
end

section
/-! SUPPORT. What each command's rule makes of the state and answers, phase by phase, and what it leaves alone. -/

namespace Sys2Proof.Proofs

open Sys2Proof.Machine Sys2Proof.Laws

/-- The four phases of a 2-bit counter (R23, R24). -/
theorem phase_cases (p : BitVec 2) : p = 0 ∨ p = 1 ∨ p = 2 ∨ p = 3 := by
  revert p; decide

/-! ### Executing a command -/

/-- A command answers one next state: what its rule gives, with its response behind the earlier ones (R53, R66). -/
theorem exec_eq_next (i : Instr) (s : State) :
    exec i s = .next { s with spc := (rule i s.spc).1, offered := s.offered ++ [(rule i s.spc).2] } :=
  exec_eq_complete i s

/-- The commands of DEC (R63). -/
theorem family_eq_dec_iff (i : Instr) : i.family = .dec ↔ i = .dend ∨ ∃ c, i = .dpush c := by
  cases i <;> simp [Instr.family]

/-! ### ENC -/

/-- `EPUSH` by phase (R104); the last case is phase 0, and `ecnt = 3` (log 7). -/
theorem epushRule_cases (b : Byte) (a : Arch) :
    (a.ecnt = 1 ∧ epushRule b a = (a.holdSecond b, Response.nothing)) ∨
    (a.ecnt = 2 ∧ epushRule b a = (a.clearEnc, Response.quartet (pack a.eh0 a.eh1 b))) ∨
    (a.ecnt ≠ 1 ∧ a.ecnt ≠ 2 ∧ epushRule b a = (a.holdFirst b, Response.nothing)) := by
  rcases phase_cases a.ecnt with h | h | h | h <;> simp [epushRule, h, Arch.respond]

/-- Under R23 `EEND` clears ENC in every phase (R106): at phase 0 there is nothing to clear. -/
theorem eendRule_fst_of_encWf (a : Arch) (h : a.encWf) : (eendRule a).1 = a.clearEnc := by
  obtain ⟨hne3, heh1, heh0⟩ := h
  rcases phase_cases a.ecnt with hp | hp | hp | hp
  · have h0 : a.eh0 = 0 := heh0 hp
    have h1 : a.eh1 = 0 := heh1 (by simp [hp])
    cases a
    simp_all [eendRule, Arch.clearEnc]
  · simp [eendRule, hp]
  · simp [eendRule, hp]
  · exact absurd hp hne3

/-! ### DEC -/

/-- `DPUSH` before phase 3 holds the value and counts the character (R110). -/
theorem dpushRule_of_ne_three (c : Byte) (a : Arch) (h : a.dcnt ≠ 3) :
    dpushRule c a = (a.holdSymbol (valueOf c) (a.dbad || isForeign c), Response.nothing) :=
  if_neg h

/-- `DPUSH` at phase 3 completes the group (R110). -/
theorem dpushRule_of_eq_three (c : Byte) (a : Arch) (h : a.dcnt = 3) :
    dpushRule c a = (a.clearGroup (a.dbad || isForeign c), groupResponse a (valueOf c)) :=
  if_pos h

/-- `DPUSH` ORs its own finding into `dbad` in every phase (R25, R110). -/
theorem dpushRule_dbad (c : Byte) (a : Arch) : (dpushRule c a).1.dbad = (a.dbad || isForeign c) := by
  by_cases h : a.dcnt = 3
  · simp [dpushRule_of_eq_three c a h]
  · simp [dpushRule_of_ne_three c a h]

/-- A group with a foreign character in its transaction is suppressed (R110). -/
theorem groupResponse_eq_nothing (c : Byte) (a : Arch) (h : (a.dbad || isForeign c) = true) :
    groupResponse a (valueOf c) = Response.nothing := by
  obtain ⟨v, hv, hbad, -⟩ | ⟨-, hr⟩ := groupResponse_cases a (valueOf c)
  · simp [isForeign, hv, hbad] at h
  · exact hr

/-- `DEND` clears DEC whatever its verdict (R112). -/
theorem dendRule_fst (a : Arch) : (dendRule a).1 = a.clearDec := by
  unfold dendRule; split
  · rfl
  · split <;> rfl

/-! ### Frames -/

/-- A leaf command changes no state (R20, R47). -/
theorem rule_fst_of_isLeaf (i : Instr) (a : Arch) (h : i.isLeaf = true) : (rule i a).1 = a := by
  cases i with
  | symof | pack => rfl
  | valof c => simp only [rule, valofRule]; split <;> rfl
  | unpack s1 s2 s3 s4 => simp only [rule, unpackRule]; split <;> rfl
  | epush | eend | dpush | dend => cases h

/-- ENC's fields change by the commands of ENC only (R32). -/
theorem rule_encPart (i : Instr) (a : Arch) (h : i.family ≠ .enc) : (rule i a).1.encPart = a.encPart := by
  cases i with
  | symof | valof | pack | unpack => rw [rule_fst_of_isLeaf _ a rfl]
  | epush | eend => exact absurd rfl h
  | dpush c =>
    by_cases hp : a.dcnt = 3
    · simp [rule, dpushRule_of_eq_three c a hp, Arch.encPart]
    · simp [rule, dpushRule_of_ne_three c a hp, Arch.encPart]
  | dend => simp [rule, dendRule_fst, Arch.encPart]

/-- DEC's fields change by the commands of DEC only (R32). -/
theorem rule_decPart (i : Instr) (a : Arch) (h : i.family ≠ .dec) : (rule i a).1.decPart = a.decPart := by
  cases i with
  | symof | valof | pack | unpack => rw [rule_fst_of_isLeaf _ a rfl]
  | epush b =>
    obtain ⟨-, hr⟩ | ⟨-, hr⟩ | ⟨-, -, hr⟩ := epushRule_cases b a <;> simp [rule, hr, Arch.decPart]
  | eend => simp only [rule, eendRule]; split <;> rfl
  | dpush | dend => exact absurd rfl h

/-- What a command does to `dbad` (R25). -/
theorem rule_dbad (i : Instr) (a : Arch) :
    (i = .dend ∧ (rule i a).1.dbad = false) ∨
    (∃ c, i = .dpush c ∧ (rule i a).1.dbad = (a.dbad || isForeign c)) ∨
    (i ≠ .dend ∧ (∀ c, i ≠ .dpush c) ∧ (rule i a).1.dbad = a.dbad) := by
  by_cases h : i.family = .dec
  · obtain rfl | ⟨c, rfl⟩ := (family_eq_dec_iff i).mp h
    · exact .inl ⟨rfl, by simp [rule, dendRule_fst]⟩
    · exact .inr (.inl ⟨c, rfl, dpushRule_dbad c a⟩)
  · have hdbad : (rule i a).1.dbad = a.dbad := congrArg (fun d => d.2.2) (rule_decPart i a h)
    rw [family_eq_dec_iff] at h
    push Not at h
    obtain ⟨hdend, hdpush⟩ := h
    exact .inr (.inr ⟨hdend, hdpush, hdbad⟩)

/-- A command of another unit than DEC does not read `dbad` (R25). -/
theorem rule_of_dbad (i : Instr) (a : Arch) (d : Bool) (h : i.family ≠ .dec) :
    rule i { a with dbad := d } = ({ (rule i a).1 with dbad := d }, (rule i a).2) := by
  cases i with
  | symof | pack => rfl
  | valof c => simp only [rule, valofRule]; split <;> rfl
  | unpack s1 s2 s3 s4 => simp only [rule, unpackRule]; split <;> rfl
  | epush b => simp only [rule, epushRule]; split <;> rfl
  | eend => simp only [rule, eendRule]; split <;> rfl
  | dpush | dend => exact absurd rfl h

/-! ### Responses (R64) -/

theorem nothing_wf : Response.nothing.wf = true := by decide

theorem failure_wf (st : Status) : (Response.failure st).wf = true := by cases st <;> decide

theorem oneItem_wf (dat : BitVec 32) (h : dat.toNat < 2 ^ 8) : Response.wf ⟨.ok, 1, dat⟩ = true := by
  simpa [Response.wf, Response.itemsFit, Response.failureIsEmpty] using h

theorem threeItems_wf (dat : BitVec 32) (h : dat.toNat < 2 ^ 24) : Response.wf ⟨.ok, 3, dat⟩ = true := by
  simpa [Response.wf, Response.itemsFit, Response.failureIsEmpty] using h

theorem symbol_wf (c : Byte) : (Response.symbol c).wf = true :=
  oneItem_wf _ (by rw [BitVec.toNat_setWidth]; omega)

theorem value_wf (v : Value) : (Response.value v).wf = true :=
  oneItem_wf _ (by rw [BitVec.toNat_setWidth]; omega)

theorem triplet_wf (t : Triplet) : (Response.triplet t).wf = true :=
  threeItems_wf _ (by rw [tripletDatum, toNat_fourBytes, BitVec.toNat_ofNat]; omega)

/-- Every command's response has one of the shapes of R64. -/
theorem rule_snd_wf (i : Instr) (a : Arch) : (rule i a).2.wf = true := by
  cases i with
  | symof v => exact symbol_wf _
  | valof c =>
    simp only [rule, valofRule]; split
    · exact failure_wf _
    · exact value_wf _
  | pack b1 b2 b3 => exact quartet_wf _
  | unpack s1 s2 s3 s4 =>
    simp only [rule, unpackRule]; split
    · exact failure_wf _
    · exact triplet_wf _
  | epush b =>
    obtain ⟨-, hr⟩ | ⟨-, hr⟩ | ⟨-, -, hr⟩ := epushRule_cases b a <;> simp [rule, hr, nothing_wf, quartet_wf]
  | eend => simp only [rule, eendRule]; split <;> simp [nothing_wf, quartet_wf]
  | dpush c =>
    by_cases hp : a.dcnt = 3
    · simp only [rule, dpushRule_of_eq_three c a hp]
      obtain ⟨v, -, -, hr⟩ | ⟨-, hr⟩ := groupResponse_cases a (valueOf c) <;> simp [hr, triplet_wf, nothing_wf]
    · simp [rule, dpushRule_of_ne_three c a hp, nothing_wf]
  | dend =>
    simp only [rule, dendRule]; split
    · exact failure_wf _
    · split
      · exact failure_wf _
      · exact nothing_wf

end Sys2Proof.Proofs
end

section
/-! SUPPORT. What one step does, event by event, and one induction over runs for every invariant. -/

namespace Sys2Proof.Proofs

open Sys2Proof.Machine Sys2Proof.Laws

theorem step_nil {s : State} (h : s.pending = []) : step s = .next s := by
  simp [step, h]

theorem step_command {s : State} {w : CommandWord} {rest : List HostEvent} (h : s.pending = .command w :: rest) :
    step s = .next { s with
      spc := (rule (decode w) s.spc).1, pending := rest, offered := s.offered ++ [(rule (decode w) s.spc).2] } := by
  simp [step, h, exec_eq_next, State.dropEvent]

theorem step_take {s : State} {rest : List HostEvent} (h : s.pending = .take :: rest) :
    step s = .next (State.takeResponse { s with pending := rest }) := by
  simp [step, h, State.dropEvent]

theorem step_reset {s : State} {rest : List HostEvent} (h : s.pending = .reset :: rest) :
    step s = .next { State.reset with pending := rest } := by
  simp [step, h, State.dropEvent, State.resetEvent]

/-- Everything a step can do, by the event that is next (R61, R66, R160): it always answers a next state. -/
theorem step_cases (s : State) :
    (s.pending = [] ∧ step s = .next s) ∨
    (∃ w rest, s.pending = .command w :: rest ∧ step s = .next { s with
      spc := (rule (decode w) s.spc).1, pending := rest, offered := s.offered ++ [(rule (decode w) s.spc).2] }) ∨
    (∃ rest, s.pending = .take :: rest ∧ step s = .next (State.takeResponse { s with pending := rest })) ∨
    (∃ rest, s.pending = .reset :: rest ∧ step s = .next { State.reset with pending := rest }) := by
  match h : s.pending with
  | [] => exact .inl ⟨rfl, step_nil h⟩
  | .command w :: rest => exact .inr (.inl ⟨w, rest, rfl, step_command h⟩)
  | .take :: rest => exact .inr (.inr (.inl ⟨rest, rfl, step_take h⟩))
  | .reset :: rest => exact .inr (.inr (.inr ⟨rest, rfl, step_reset h⟩))

/-- SPC never refuses and never faults (R66, R150). -/
theorem exists_step_eq_next (s : State) : ∃ t, step s = .next t := by
  obtain ⟨-, h⟩ | ⟨_, _, -, h⟩ | ⟨_, -, h⟩ | ⟨_, -, h⟩ := step_cases s <;> exact ⟨_, h⟩

/-- What every step keeps, every run keeps. -/
theorem run_of_step_invariant {P : State → Prop} (hstep : ∀ s t, P s → step s = .next t → P t) (n : Nat) :
    ∀ s, P s → ∃ t, run n s = .next t ∧ P t := by
  induction n with
  | zero => exact fun s hs => ⟨s, rfl, hs⟩
  | succ n ih =>
    intro s hs
    obtain ⟨u, hu⟩ := exists_step_eq_next s
    rw [run_succ_of_step n hu]
    exact ih u (hstep s u hs hu)

end Sys2Proof.Proofs
end

section
/-! The invariants of the two units and of the responses (R23, R24, R64), and idle units (R31). -/

namespace Sys2Proof.Proofs

open Sys2Proof.Machine Sys2Proof.Laws

/-! ### Each command keeps R23 and R24 -/

/-- R23 is about ENC's fields alone. -/
theorem encWf_of_encPart_eq {a b : Arch} (h : a.encPart = b.encPart) (hb : b.encWf) : a.encWf := by
  simp only [Arch.encPart, Prod.mk.injEq] at h
  obtain ⟨h0, h1, hcnt⟩ := h
  rwa [Arch.encWf, h0, h1, hcnt]

/-- R24 is about DEC's fields alone. -/
theorem decWf_of_decPart_eq {a b : Arch} (h : a.decPart = b.decPart) (hb : b.decWf) : a.decWf := by
  simp only [Arch.decPart, Prod.mk.injEq] at h
  obtain ⟨⟨h0, h1, h2⟩, hcnt, -⟩ := h
  rwa [Arch.decWf, h0, h1, h2, hcnt]

theorem clearEnc_encWf (a : Arch) : a.clearEnc.encWf := by simp [Arch.encWf]

theorem clearDec_decWf (a : Arch) : a.clearDec.decWf := by simp [Arch.decWf]

theorem epushRule_encWf (b : Byte) (a : Arch) (h : a.encWf) : (epushRule b a).1.encWf := by
  obtain ⟨-, heh1, -⟩ := h
  obtain ⟨-, hr⟩ | ⟨-, hr⟩ | ⟨-, hne2, hr⟩ := epushRule_cases b a
  · simp [hr, Arch.encWf]
  · exact (congrArg Prod.fst hr).symm ▸ clearEnc_encWf a
  · simp [hr, Arch.encWf, heh1 hne2]

theorem dpushRule_decWf (c : Byte) (a : Arch) (h : a.decWf) : (dpushRule c a).1.decWf := by
  obtain ⟨-, hdh1, hdh2⟩ := h
  obtain ⟨hhold0, hhold1, hhold2⟩ := holdSymbol_phase a (valueOf c) (a.dbad || isForeign c)
  rcases phase_cases a.dcnt with hp | hp | hp | hp
  · rw [dpushRule_of_ne_three c a (by simp [hp]), hhold0 hp]
    simp [Arch.decWf, hdh1 (by simp [hp]), hdh2 (by simp [hp])]
  · rw [dpushRule_of_ne_three c a (by simp [hp]), hhold1 hp]
    simp [Arch.decWf, hdh2 (by simp [hp])]
  · rw [dpushRule_of_ne_three c a (by simp [hp]), hhold2 hp]
    simp [Arch.decWf]
  · rw [dpushRule_of_eq_three c a hp]
    simp [Arch.decWf]

theorem rule_encWf (i : Instr) (a : Arch) (h : a.encWf) : (rule i a).1.encWf := by
  cases i with
  | epush b => exact epushRule_encWf b a h
  | eend => exact (eendRule_fst_of_encWf a h).symm ▸ clearEnc_encWf a
  | symof | valof | pack | unpack | dpush | dend =>
    exact encWf_of_encPart_eq (rule_encPart _ a (by simp [Instr.family])) h

theorem rule_decWf (i : Instr) (a : Arch) (h : a.decWf) : (rule i a).1.decWf := by
  cases i with
  | dpush c => exact dpushRule_decWf c a h
  | dend => exact (dendRule_fst a).symm ▸ clearDec_decWf a
  | symof | valof | pack | unpack | epush | eend =>
    exact decWf_of_decPart_eq (rule_decPart _ a (by simp [Instr.family])) h

/-! ### Steps and runs -/

/-- Reset meets the invariant, whatever the host is about to do. -/
theorem reset_inv (events : List HostEvent) : State.Inv { State.reset with pending := events } := by
  simp [State.Inv, Arch.encWf, Arch.decWf, State.reset, Arch.reset]

/-- Settles O35: a command keeps R23 and R24 and adds a response of an allowed shape; taking a response moves one;
a reset begins anew. -/
theorem stepKeepsTheInvariant : Obligations.StepKeepsTheInvariant := by
  intro s t hs ht
  obtain ⟨henc, hdec, hwf⟩ := hs
  obtain ⟨-, h⟩ | ⟨w, rest, -, h⟩ | ⟨rest, -, h⟩ | ⟨rest, -, h⟩ := step_cases s <;>
    obtain rfl := Host.Outcome.next.inj (h.symm.trans ht)
  · exact ⟨henc, hdec, hwf⟩
  · refine ⟨rule_encWf _ _ henc, rule_decWf _ _ hdec, fun r hr => ?_⟩
    rw [← List.append_assoc, List.mem_append, List.mem_singleton] at hr
    obtain hr | rfl := hr
    · exact hwf r hr
    · exact rule_snd_wf _ _
  · rw [State.Inv, takeResponse_spc, takeResponse_all]
    exact ⟨henc, hdec, hwf⟩
  · exact reset_inv rest

/-- Settles O37, by the induction over runs. -/
theorem reachableStatesMeetTheInvariant : Obligations.ReachableStatesMeetTheInvariant :=
  fun events n => run_of_step_invariant stepKeepsTheInvariant n _ (reset_inv events)

/-- Settles O31. -/
theorem resetStateIsAllZero : Obligations.ResetStateIsAllZero := by
  unfold Obligations.ResetStateIsAllZero
  decide

/-! ### Idle units -/

theorem encIdle_iff (a : Arch) : a.encIdle ↔ a.eh0 = 0 ∧ a.eh1 = 0 ∧ a.ecnt = 0 := by
  simp [Arch.encIdle, Arch.encPart]

theorem decIdle_iff (a : Arch) :
    a.decIdle ↔ (a.dh0 = 0 ∧ a.dh1 = 0 ∧ a.dh2 = 0) ∧ a.dcnt = 0 ∧ a.dbad = false := by
  simp [Arch.decIdle, Arch.decPart]

theorem clearEnc_encIdle (a : Arch) : a.clearEnc.encIdle := rfl

theorem clearDec_decIdle (a : Arch) : a.clearDec.decIdle := rfl

/-- A unit the invariant holds of is idle as soon as its phase is 0: nothing is then held (R31). -/
theorem encIdle_of_ecnt_eq_zero (a : Arch) (h : a.encWf) (hp : a.ecnt = 0) : a.encIdle := by
  obtain ⟨-, heh1, heh0⟩ := h
  exact (encIdle_iff a).mpr ⟨heh0 hp, heh1 (by simp [hp]), hp⟩

theorem decIdle_of_dcnt_eq_zero (a : Arch) (h : a.decWf) (hp : a.dcnt = 0) (hbad : a.dbad = false) :
    a.decIdle := by
  obtain ⟨h0, h1, h2⟩ := h
  exact (decIdle_iff a).mpr ⟨⟨h0 (by simp [hp]), h1 (by simp [hp]), h2 (by simp [hp])⟩, hp, hbad⟩

/-- Settles O39: each of the four commands clears its unit's fields, and the rest is the invariant. -/
theorem endCommandsLeaveUnitsIdle : Obligations.EndCommandsLeaveUnitsIdle := by
  refine ⟨fun s h => ⟨_, exec_eq_next _ s, ?_⟩, fun s => ⟨_, exec_eq_next _ s, ?_⟩,
    fun b s hp => ⟨_, exec_eq_next _ s, ?_⟩, fun c s hp hbad hc => ⟨_, exec_eq_next _ s, ?_⟩, ?_⟩
  case refine_1 => exact (eendRule_fst_of_encWf s.spc h).symm ▸ clearEnc_encIdle s.spc
  case refine_2 => exact (dendRule_fst s.spc).symm ▸ clearDec_decIdle s.spc
  case refine_3 =>
    obtain ⟨h1, -⟩ | ⟨-, hr⟩ | ⟨-, hne2, -⟩ := epushRule_cases b s.spc
    · exact absurd (h1.symm.trans hp) (by decide)
    · exact (congrArg Prod.fst hr).symm ▸ clearEnc_encIdle s.spc
    · exact absurd hp hne2
  case refine_4 =>
    have hclear : (dpushRule c s.spc).1 = s.spc.clearDec := by
      rw [dpushRule_of_eq_three c s.spc hp, hbad, hc]; rfl
    exact hclear.symm ▸ clearDec_decIdle s.spc
  case refine_5 =>
    rintro s ⟨henc, hdec, -⟩
    exact ⟨encIdle_of_ecnt_eq_zero s.spc henc, decIdle_of_dcnt_eq_zero s.spc hdec⟩

/-! ### The sticky flag -/

/-- Settles O27, from what each command does to `dbad` and from its being read by `DPUSH` and `DEND` only. -/
theorem dbadIsSticky : Obligations.DbadIsSticky := by
  refine ⟨fun i s => ⟨_, exec_eq_next i s, ?_⟩, fun i s d hdend hdpush => ⟨_, _, exec_eq_next i s, ?_⟩,
    fun c s hp hbad => ⟨_, exec_eq_next _ s, ?_⟩, fun s hp hbad => ⟨_, exec_eq_next _ s, ?_⟩,
    fun s rest hr => ⟨_, step_reset hr, rfl⟩, rfl⟩
  case refine_1 =>
    obtain ⟨rfl, h⟩ | ⟨c, rfl, h⟩ | ⟨hdend, hdpush, h⟩ := rule_dbad i s.spc <;> simp only [h]
    · simp
    · constructor <;> intro hold <;> simp [hold]
    · constructor <;> intro hold <;> simp [hold, hdend, hdpush]
  case refine_2 =>
    have hfam : i.family ≠ .dec := by
      rw [Ne, family_eq_dec_iff]; push Not; exact ⟨hdend, hdpush⟩
    rw [exec_eq_next, rule_of_dbad i s.spc d hfam]
  case refine_3 =>
    simp [rule, dpushRule_of_eq_three c s.spc hp, groupResponse_eq_nothing c s.spc hbad, hbad, Response.nothing]
  case refine_4 =>
    simp [rule, dendRule, hp, hbad]

end Sys2Proof.Proofs
end

section
/-! The architectural state is what the pushed bytes and characters determine (R22 to R25). A list is its whole groups
followed by the unfinished one, and a push adds to that one. -/

namespace Sys2Proof.Proofs

open Sys2Proof.Machine Sys2Proof.Laws

/-! ### Whole groups and the unfinished one -/

/-- Every list is whole groups of `n` and an unfinished one. -/
theorem exists_groups {α : Type} (n : Nat) (hn : 0 < n) (l : List α) :
    ∃ whole group, l = whole ++ group ∧ n ∣ whole.length ∧ group.length < n := by
  have hle : n * (l.length / n) ≤ l.length := Nat.mul_div_le _ _
  refine ⟨l.take (n * (l.length / n)), l.drop (n * (l.length / n)), (List.take_append_drop _ l).symm, ?_, ?_⟩
  · rw [List.length_take, Nat.min_eq_left hle]
    exact Nat.dvd_mul_right _ _
  · rw [List.length_drop, ← Nat.mod_eq_sub_mul_div]
    exact Nat.mod_lt _ hn

section
variable {α : Type} {n : Nat} {whole group : List α} (hwhole : n ∣ whole.length) (hgroup : group.length < n)
include hwhole hgroup

theorem length_groups_mod : (whole ++ group).length % n = group.length := by
  obtain ⟨k, hk⟩ := hwhole
  rw [List.length_append, hk, Nat.mul_add_mod, Nat.mod_eq_of_lt hgroup]

theorem drop_whole_groups : (whole ++ group).drop (n * ((whole ++ group).length / n)) = group := by
  have hmod := length_groups_mod hwhole hgroup
  have hdiv := Nat.div_add_mod (whole ++ group).length n
  have hlen := List.length_append (as := whole) (bs := group)
  exact List.drop_left' (by omega)

end

/-- ENC's fields are about the unfinished group (R23). -/
theorem archOfHistory_encGroups {whole group : List Byte} (y : List Byte) (hwhole : 3 ∣ whole.length)
    (hgroup : group.length < 3) :
    archOfHistory (whole ++ group) y = { archOfHistory [] y with
      eh0 := group.getD 0 0, eh1 := group.getD 1 0, ecnt := BitVec.ofNat 2 group.length } := by
  simp only [archOfHistory, drop_whole_groups hwhole hgroup, length_groups_mod hwhole hgroup]

/-- DEC's phase and values are about the unfinished group, `dbad` about every character (R24, R25). -/
theorem archOfHistory_decGroups {whole group : List Byte} (x : List Byte) (hwhole : 4 ∣ whole.length)
    (hgroup : group.length < 4) :
    archOfHistory x (whole ++ group) = { archOfHistory x [] with
      dh0 := heldValue group 0, dh1 := heldValue group 1, dh2 := heldValue group 2
      dcnt := BitVec.ofNat 2 group.length, dbad := (whole ++ group).any isForeign } := by
  simp only [archOfHistory, drop_whole_groups hwhole hgroup, length_groups_mod hwhole hgroup]

/-! ### The four commands of the units -/

/-- `S0` is the state of the empty history (R30). -/
theorem archReset_eq_archOfHistory : Arch.reset = archOfHistory [] [] := by decide

/-- A state that a history determines meets R23. -/
theorem archOfHistory_encWf (x y : List Byte) : (archOfHistory x y).encWf := by
  obtain ⟨whole, group, rfl, hwhole, hgroup⟩ := exists_groups 3 (by decide) x
  rw [archOfHistory_encGroups y hwhole hgroup]
  match group, hgroup with
  | [], _ => simp [Arch.encWf]
  | [b1], _ => simp [Arch.encWf]
  | [b1, b2], _ => simp [Arch.encWf]

theorem epushRule_archOfHistory (b : Byte) (x y : List Byte) :
    (epushRule b (archOfHistory x y)).1 = archOfHistory (x ++ [b]) y := by
  obtain ⟨whole, group, rfl, hwhole, hgroup⟩ := exists_groups 3 (by decide) x
  rw [archOfHistory_encGroups y hwhole hgroup, List.append_assoc]
  match group, hgroup with
  | [], _ => rw [archOfHistory_encGroups y hwhole (by simp)]; rfl
  | [b1], _ => rw [archOfHistory_encGroups y hwhole (by simp)]; rfl
  | [b1, b2], _ =>
    have hwhole' : 3 ∣ (whole ++ [b1, b2, b]).length := by simpa using hwhole
    have hdone := archOfHistory_encGroups y (group := []) hwhole' (by simp)
    rw [List.append_nil] at hdone
    exact hdone.symm

theorem eendRule_archOfHistory (x y : List Byte) : (eendRule (archOfHistory x y)).1 = archOfHistory [] y :=
  eendRule_fst_of_encWf _ (archOfHistory_encWf x y)

theorem dpushRule_archOfHistory (c : Byte) (x y : List Byte) :
    (dpushRule c (archOfHistory x y)).1 = archOfHistory x (y ++ [c]) := by
  obtain ⟨whole, group, rfl, hwhole, hgroup⟩ := exists_groups 4 (by decide) y
  have hbad : ((whole ++ group).any isForeign || isForeign c) = (whole ++ (group ++ [c])).any isForeign := by
    simp [Bool.or_assoc]
  rw [archOfHistory_decGroups x hwhole hgroup, List.append_assoc]
  match group, hgroup with
  | [], _ =>
    rw [archOfHistory_decGroups x hwhole (by simp), dpushRule_of_ne_three _ _ (by simp), ← hbad]
    exact (holdSymbol_phase _ _ _).1 rfl
  | [c1], _ =>
    rw [archOfHistory_decGroups x hwhole (by simp), dpushRule_of_ne_three _ _ (by simp), ← hbad]
    exact (holdSymbol_phase _ _ _).2.1 rfl
  | [c1, c2], _ =>
    rw [archOfHistory_decGroups x hwhole (by simp), dpushRule_of_ne_three _ _ (by simp), ← hbad]
    exact (holdSymbol_phase _ _ _).2.2 rfl
  | [c1, c2, c3], _ =>
    have hwhole' : 4 ∣ (whole ++ [c1, c2, c3, c]).length := by simpa using hwhole
    have hdone := archOfHistory_decGroups x (group := []) hwhole' (by simp)
    rw [List.append_nil] at hdone
    rw [dpushRule_of_eq_three _ _ rfl, hbad]
    exact hdone.symm

theorem dendRule_archOfHistory (x y : List Byte) : (dendRule (archOfHistory x y)).1 = archOfHistory x [] :=
  dendRule_fst _

/-! ### Steps and runs -/

/-- A command makes of the state what it makes of the history. -/
theorem rule_archOfHistory (w : CommandWord) (x y : List Byte) :
    (rule (decode w) (archOfHistory x y)).1 =
      archOfHistory (bytesAfter x (.command w)) (charsAfter y (.command w)) := by
  simp only [bytesAfter, charsAfter]
  cases decode w with
  | symof | valof | pack | unpack => exact rule_fst_of_isLeaf _ _ rfl
  | epush b => exact epushRule_archOfHistory b x y
  | eend => exact eendRule_archOfHistory x y
  | dpush c => exact dpushRule_archOfHistory c x y
  | dend => exact dendRule_archOfHistory x y

/-- Settles O57: taking a response leaves the state alone, a reset empties the history, and a command is the lemma
above. -/
theorem stepAdvancesTheHistory : Obligations.StepAdvancesTheHistory := by
  intro s x y e rest hp hs
  cases e with
  | command w => exact ⟨_, step_command hp, rfl, by rw [hs]; exact rule_archOfHistory w x y⟩
  | take => exact ⟨_, step_take hp, takeResponse_pending _, by rw [takeResponse_spc]; exact hs⟩
  | reset => exact ⟨_, step_reset hp, rfl, archReset_eq_archOfHistory⟩

/-- A run over events carries a history on. -/
theorem run_advances_history (events : List HostEvent) (s : State) (x y : List Byte)
    (hp : s.pending = events) (hs : s.spc = archOfHistory x y) :
    ∃ t, run events.length s = .next t ∧ t.pending = [] ∧
      t.spc = archOfHistory (events.foldl bytesAfter x) (events.foldl charsAfter y) := by
  induction events generalizing s x y with
  | nil => exact ⟨s, rfl, hp, hs⟩
  | cons e rest ih =>
    obtain ⟨u, hstep, hpu, hsu⟩ := stepAdvancesTheHistory s x y e rest hp hs
    rw [List.length_cons, run_succ_of_step _ hstep]
    exact ih u _ _ hpu hsu

/-- Settles O38: reset is the empty history, and the run carries it on. -/
theorem historyDeterminesTheState : Obligations.HistoryDeterminesTheState :=
  fun history => run_advances_history history _ [] [] rfl archReset_eq_archOfHistory

end Sys2Proof.Proofs
end

section
/-! SUPPORT. A program is presented as the words its commands are written as, and each word decodes to its command. -/

namespace Sys2Proof.Proofs

open Sys2Proof.Machine Sys2Proof.Laws

/-! ### The words of a command (R67, R72) -/

/-- The lowest field of a padded byte is the byte: `VALOF`, `EPUSH` and `DPUSH` (R67). -/
theorem argByte_setWidth (b : Byte) : argByte (b.setWidth 32) 0 = b := by
  apply BitVec.eq_of_toNat_eq
  rw [argByte, toNat_extract, BitVec.toNat_setWidth]; omega

/-- The field of `SYMOF` in a padded value is the value (R67). -/
theorem argValue_setWidth (v : Value) : argValue (v.setWidth 32) = v := by
  apply BitVec.eq_of_toNat_eq
  rw [argValue, toNat_extract, BitVec.toNat_setWidth]; omega

/-- The four byte fields of an argument made of four bytes: `PACK` and `UNPACK` (R67). -/
theorem argByte_fourBytes (a b c d : Byte) :
    argByte (a ++ b ++ c ++ d) 24 = a ∧ argByte (a ++ b ++ c ++ d) 16 = b ∧
    argByte (a ++ b ++ c ++ d) 8 = c ∧ argByte (a ++ b ++ c ++ d) 0 = d := by
  refine ⟨?_, ?_, ?_, ?_⟩ <;> apply BitVec.eq_of_toNat_eq <;> rw [argByte, toNat_extract, toNat_fourBytes] <;> omega

/-- Decoding what a command is written as gives the command back (R72). -/
theorem decode_encode (i : Instr) : decode (encode i) = i := by
  cases i with
  | symof v => simp [encode, decode, argValue_setWidth]
  | valof b | epush b | dpush b => simp [encode, decode, argByte_setWidth]
  | pack b1 b2 b3 =>
    obtain ⟨-, h1, h2, h3⟩ := argByte_fourBytes 0#8 b1 b2 b3
    simp [encode, decode, h1, h2, h3]
  | unpack s1 s2 s3 s4 =>
    obtain ⟨h1, h2, h3, h4⟩ := argByte_fourBytes s1 s2 s3 s4
    simp [encode, decode, h1, h2, h3, h4]
  | eend | dend => simp [encode, decode]

/-- Running a program is the spec's run of its commands (R66, R70). -/
theorem run_running (s : State) (program : List Instr) :
    run program.length (s.running program) = .next { s with
      spc := (ruleRun program s.spc).1, pending := [], offered := s.offered ++ (ruleRun program s.spc).2 } := by
  have hdecode : (program.map encode).map decode = program := by simp [decode_encode, Function.comp_def]
  have hrun := run_presenting s (program.map encode)
  rwa [List.length_map, hdecode] at hrun

end Sys2Proof.Proofs
end

section
/-! Wide and narrow commands agree (R45), and responses leave in the order of the commands (R53). -/

namespace Sys2Proof.Proofs

open Sys2Proof.Machine Sys2Proof.Laws

/-! ### Three bytes, four characters (R45) -/

/-- Three pushes into an idle ENC hold, hold and deliver, and leave no trace (R104). -/
theorem ruleRun_three_epush (a : Arch) (b1 b2 b3 : Byte) (h : a.encIdle) :
    ruleRun [.epush b1, .epush b2, .epush b3] a =
      (a, [Response.nothing, Response.nothing, Response.quartet (pack b1 b2 b3)]) := by
  obtain ⟨h0, h1, hcnt⟩ := (encIdle_iff a).mp h
  have hfirst : epushRule b1 a = (a.holdFirst b1, Response.nothing) := by simp [epushRule, hcnt, Arch.respond]
  have hsecond : epushRule b2 (a.holdFirst b1) = ((a.holdFirst b1).holdSecond b2, Response.nothing) := rfl
  have hthird : epushRule b3 ((a.holdFirst b1).holdSecond b2) =
      (((a.holdFirst b1).holdSecond b2).clearEnc, Response.quartet (pack b1 b2 b3)) := rfl
  have hclear : ((a.holdFirst b1).holdSecond b2).clearEnc = a := by
    cases a; simp_all [Arch.holdFirst, Arch.holdSecond, Arch.clearEnc]
  simp only [ruleRun_cons, ruleRun_nil, rule, hfirst, hsecond, hthird, hclear]

/-- Four pushes of alphabet characters into an idle DEC hold three values and deliver, and leave no trace (R110). -/
theorem ruleRun_four_dpush (a : Arch) {c1 c2 c3 c4 : Byte} {v1 v2 v3 v4 : Value} (h : a.decIdle)
    (h1 : valueOf c1 = some v1) (h2 : valueOf c2 = some v2) (h3 : valueOf c3 = some v3) (h4 : valueOf c4 = some v4) :
    ruleRun [.dpush c1, .dpush c2, .dpush c3, .dpush c4] a =
      (a, [Response.nothing, Response.nothing, Response.nothing, Response.triplet (unpackV v1 v2 v3 v4)]) := by
  obtain ⟨eh0, eh1, ecnt, dh0, dh1, dh2, dcnt, dbad⟩ := a
  obtain ⟨⟨rfl, rfl, rfl⟩, rfl, rfl⟩ := (decIdle_iff _).mp h
  have hfirst : dpushRule c1 ⟨eh0, eh1, ecnt, 0, 0, 0, 0, false⟩ =
      (⟨eh0, eh1, ecnt, v1, 0, 0, 1, false⟩, Response.nothing) := by simp only [dpushRule, h1]; rfl
  have hsecond : dpushRule c2 ⟨eh0, eh1, ecnt, v1, 0, 0, 1, false⟩ =
      (⟨eh0, eh1, ecnt, v1, v2, 0, 2, false⟩, Response.nothing) := by simp only [dpushRule, h2]; rfl
  have hthird : dpushRule c3 ⟨eh0, eh1, ecnt, v1, v2, 0, 2, false⟩ =
      (⟨eh0, eh1, ecnt, v1, v2, v3, 3, false⟩, Response.nothing) := by simp only [dpushRule, h3]; rfl
  have hfourth : dpushRule c4 ⟨eh0, eh1, ecnt, v1, v2, v3, 3, false⟩ =
      (⟨eh0, eh1, ecnt, 0, 0, 0, 0, false⟩, Response.triplet (unpackV v1 v2 v3 v4)) := by
    simp only [dpushRule, h4]; rfl
  simp only [ruleRun_cons, ruleRun_nil, rule, hfirst, hsecond, hthird, hfourth]

/-- A character that is not foreign has a value (R83). -/
theorem exists_valueOf {c : Byte} (h : isForeign c = false) : ∃ v, valueOf c = some v := by
  simpa [isForeign, Option.isSome_iff_exists] using h

/-- Settles O28: the wide command and the pushes deliver one and the same response. -/
theorem mixedWidthAgreement : Obligations.MixedWidthAgreement := by
  refine ⟨fun s b1 b2 b3 hidle => ⟨Response.quartet (pack b1 b2 b3), exec_eq_next _ s, ?_⟩,
    fun s c1 c2 c3 c4 hidle hchars => ?_⟩
  · have hrun := run_running s [.epush b1, .epush b2, .epush b3]
    rwa [ruleRun_three_epush s.spc b1 b2 b3 hidle] at hrun
  · obtain ⟨v1, h1⟩ := exists_valueOf (hchars c1 (by simp))
    obtain ⟨v2, h2⟩ := exists_valueOf (hchars c2 (by simp))
    obtain ⟨v3, h3⟩ := exists_valueOf (hchars c3 (by simp))
    obtain ⟨v4, h4⟩ := exists_valueOf (hchars c4 (by simp))
    have hunpack : rule (.unpack c1 c2 c3 c4) s.spc = (s.spc, Response.triplet (unpackV v1 v2 v3 v4)) := by
      simp [rule, unpackRule, unpack, h1, h2, h3, h4, Arch.respond]
    refine ⟨Response.triplet (unpackV v1 v2 v3 v4), by rw [exec_eq_next, hunpack], ?_⟩
    have hrun := run_running s [.dpush c1, .dpush c2, .dpush c3, .dpush c4]
    rwa [ruleRun_four_dpush s.spc hidle h1 h2 h3 h4] at hrun

/-! ### Commands and takes interleaved (R53) -/

/-- The words of the commands among some events, in order. -/
def commandWords : List HostEvent → List CommandWord
  | [] => []
  | .command w :: rest => w :: commandWords rest
  | .take :: rest => commandWords rest
  | .reset :: rest => commandWords rest

/-- Keeping the commands only is presenting their words. -/
theorem filter_isCommand (events : List HostEvent) :
    events.filter HostEvent.isCommand = (commandWords events).map .command := by
  induction events with
  | nil => rfl
  | cons e rest ih => cases e <;> simp [commandWords, HostEvent.isCommand, List.filter_cons, ih]

/-- Over events without a reset, the responses taken and still offered grow by those of the commands alone, and a take
only moves one (R53, R61). -/
theorem run_of_no_reset (events : List HostEvent) (s : State) (hp : s.pending = events)
    (hreset : ∀ e ∈ events, e.isReset = false) :
    ∃ t, run events.length s = .next t ∧
      t.taken ++ t.offered = s.taken ++ s.offered ++ (ruleRun ((commandWords events).map decode) s.spc).2 ∧
      t.spc = (ruleRun ((commandWords events).map decode) s.spc).1 := by
  induction events generalizing s with
  | nil => exact ⟨s, rfl, by simp [commandWords], rfl⟩
  | cons e rest ih =>
    obtain ⟨he, hrest⟩ := List.forall_mem_cons.mp hreset
    cases e with
    | command w =>
      obtain ⟨t, hrun, hall, hspc⟩ := ih { s with
        spc := (rule (decode w) s.spc).1, pending := rest, offered := s.offered ++ [(rule (decode w) s.spc).2] }
        rfl hrest
      exact ⟨t, (run_succ_of_step _ (step_command hp)).trans hrun, by simpa [commandWords] using hall, hspc⟩
    | take =>
      obtain ⟨t, hrun, hall, hspc⟩ :=
        ih (State.takeResponse { s with pending := rest }) (takeResponse_pending _) hrest
      rw [takeResponse_all, takeResponse_spc] at hall
      rw [takeResponse_spc] at hspc
      exact ⟨t, (run_succ_of_step _ (step_take hp)).trans hrun, hall, hspc⟩
    | reset => cases he

/-- Settles O33: both runs give the responses of the spec's run of the commands. -/
theorem responsesLeaveInCommandOrder : Obligations.ResponsesLeaveInCommandOrder := by
  intro s events hreset
  obtain ⟨t, hrun, hall, hspc⟩ := run_of_no_reset events { s with pending := events } rfl hreset
  have hlength : (events.filter HostEvent.isCommand).length = (commandWords events).length := by
    rw [filter_isCommand, List.length_map]
  have halone := run_presenting s (commandWords events)
  rw [State.presenting, ← filter_isCommand, ← hlength] at halone
  exact ⟨t, _, _, hrun, halone, rfl, by rw [ruleRun_length, List.length_map, hlength], hall, hspc⟩

end Sys2Proof.Proofs
end

section
/-! Command words, opcode by opcode: decoding and encoding agree (R72), the unused bits are ignored (R65), and each word
selects one row of the opcode map (R63). -/

namespace Sys2Proof.Proofs

open Sys2Proof.Machine Sys2Proof.Laws

/-! ### A word is its two fields (R62) -/

/-- A word is its opcode and its argument. -/
theorem commandWord_fields (w : CommandWord) : commandWord (opField w) (argField w) = w := by
  apply BitVec.eq_of_toNat_eq
  rw [toNat_commandWord, opField, argField, toNat_extract, toNat_extract]; omega

/-- All eight values of `op` are assigned (R63). -/
theorem opcode_cases (op : BitVec 3) :
    op = 0b000 ∨ op = 0b001 ∨ op = 0b010 ∨ op = 0b011 ∨ op = 0b100 ∨ op = 0b101 ∨ op = 0b110 ∨ op = 0b111 := by
  revert op; decide

/-- The case split over words: one case for each opcode, named after its command, with any argument (R63). -/
theorem word_cases {motive : CommandWord → Prop}
    (symof : ∀ arg, motive (commandWord 0b000 arg)) (valof : ∀ arg, motive (commandWord 0b001 arg))
    (pack : ∀ arg, motive (commandWord 0b010 arg)) (unpack : ∀ arg, motive (commandWord 0b011 arg))
    (epush : ∀ arg, motive (commandWord 0b100 arg)) (eend : ∀ arg, motive (commandWord 0b101 arg))
    (dpush : ∀ arg, motive (commandWord 0b110 arg)) (dend : ∀ arg, motive (commandWord 0b111 arg))
    (w : CommandWord) : motive w := by
  rw [← commandWord_fields w]
  obtain h | h | h | h | h | h | h | h := opcode_cases (opField w) <;> rw [h]
  exacts [symof _, valof _, pack _, unpack _, epush _, eend _, dpush _, dend _]

theorem commandWord_and (op op' : BitVec 3) (arg arg' : BitVec 32) :
    commandWord op arg &&& commandWord op' arg' = commandWord (op &&& op') (arg &&& arg') := BitVec.and_append

theorem commandWord_inj (op op' : BitVec 3) (arg arg' : BitVec 32) :
    commandWord op arg = commandWord op' arg' ↔ op = op' ∧ arg = arg' := by
  refine ⟨fun h => ⟨?_, ?_⟩, fun ⟨hop, harg⟩ => by rw [hop, harg]⟩
  · simpa using congrArg opField h
  · simpa using congrArg argField h

/-- A mask that keeps the opcode leaves it as it is. -/
theorem and_opcodeMask (op : BitVec 3) : op &&& 7 = op := BitVec.and_allOnes

/-! ### The operand fields, masked in place (R67) -/

/-- A field that begins at bit 0, padded again, is the argument under the mask of the field: `SYMOF` and the commands
with one byte. -/
theorem setWidth_lowField (arg : BitVec 32) (k : Nat) (hk : k ≤ 32) :
    (arg.extractLsb' 0 k).setWidth 32 = arg &&& BitVec.ofNat 32 (2 ^ k - 1) := by
  have hpow : 2 ^ k ≤ 2 ^ 32 := Nat.pow_le_pow_right (by omega) hk
  have hfield : arg.toNat % 2 ^ k < 2 ^ k := Nat.mod_lt _ (Nat.two_pow_pos k)
  have hmask : (BitVec.ofNat 32 (2 ^ k - 1)).toNat = 2 ^ k - 1 := Nat.mod_eq_of_lt (by omega)
  apply BitVec.eq_of_toNat_eq
  rw [BitVec.toNat_setWidth, toNat_extract, BitVec.toNat_and, hmask, and_mask, pow_zero, Nat.div_one,
    Nat.mod_eq_of_lt (by omega)]

/-- The three low bytes put together are the argument under the mask of `PACK`. -/
theorem threeBytes_of_arg (arg : BitVec 32) :
    0#8 ++ argByte arg 16 ++ argByte arg 8 ++ argByte arg 0 = arg &&& 0xFFFFFF := by
  apply BitVec.eq_of_toNat_eq
  have hmask : (arg &&& 0xFFFFFF).toNat = arg.toNat % 2 ^ 24 := and_mask _ 24
  rw [hmask, toNat_fourBytes]
  simp only [argByte, toNat_extract, BitVec.toNat_ofNat]; omega

/-- The four bytes put together are the whole argument: `UNPACK` has no unused bit. -/
theorem fourBytes_of_arg (arg : BitVec 32) :
    argByte arg 24 ++ argByte arg 16 ++ argByte arg 8 ++ argByte arg 0 = arg := by
  apply BitVec.eq_of_toNat_eq
  rw [toNat_fourBytes]
  simp only [argByte, toNat_extract]; omega

/-! ### Decoding and encoding agree (R72) -/

/-- Clearing the unused bits keeps the opcode and masks the argument. -/
theorem clearUnused_of_mask {op : BitVec 3} {arg mask : BitVec 32}
    (h : usedBits (commandWord op arg) = commandWord 7 mask) :
    clearUnused (commandWord op arg) = commandWord op (arg &&& mask) := by
  rw [clearUnused, h, commandWord_and, and_opcodeMask]

/-- Decoding loses the unused bits and nothing else (R72). -/
theorem encode_decode (w : CommandWord) : encode (decode w) = clearUnused w := by
  induction w using word_cases with
  | symof arg =>
    rw [clearUnused_of_mask (mask := 0x3F) (by simp [usedBits]; rfl)]
    simpa [decode, encode, argValue] using congrArg (commandWord _) (setWidth_lowField arg 6 (by omega))
  | valof arg | epush arg | dpush arg =>
    rw [clearUnused_of_mask (mask := 0xFF) (by simp [usedBits]; rfl)]
    simpa [decode, encode, argByte] using congrArg (commandWord _) (setWidth_lowField arg 8 (by omega))
  | pack arg =>
    rw [clearUnused_of_mask (mask := 0xFFFFFF) (by simp [usedBits]; rfl)]
    simpa [decode, encode] using congrArg (commandWord _) (threeBytes_of_arg arg)
  | unpack arg =>
    rw [clearUnused_of_mask (mask := BitVec.allOnes 32) (by simp [usedBits]; rfl), BitVec.and_allOnes]
    simpa [decode, encode] using congrArg (commandWord _) (fourBytes_of_arg arg)
  | eend arg | dend arg =>
    rw [clearUnused_of_mask (mask := 0) (by simp [usedBits]; rfl)]
    simp [decode, encode]

/-- Settles O1: the two compositions are the two lemmas `decode_encode` and `encode_decode`. -/
theorem decodeAndEncodeAgree : Obligations.DecodeAndEncodeAgree :=
  ⟨fun i _ => decode_encode i, encode_decode⟩

/-! ### Unused bits are ignored (R65) -/

/-- Words with the same unused bits cleared decode to the same command. -/
theorem decode_eq_iff (w w' : CommandWord) : decode w = decode w' ↔ clearUnused w = clearUnused w' := by
  rw [← encode_decode, ← encode_decode]
  exact (Function.LeftInverse.injective decode_encode).eq_iff.symm

theorem opField_and (v w : CommandWord) : opField (v &&& w) = opField v &&& opField w :=
  BitVec.extractLsb'_and

/-- Every opcode uses its own three bits. -/
theorem opField_usedBits (w : CommandWord) : opField (usedBits w) = 7 := by
  induction w using word_cases with
  | symof | valof | pack | unpack | epush | eend | dpush | dend => simp [usedBits]; rfl

/-- Which bits are used is decided by the opcode alone. -/
theorem usedBits_congr {w w' : CommandWord} (h : opField w = opField w') : usedBits w = usedBits w' := by
  simp only [usedBits, h]

/-- A word that agrees with `w` on the bits `w` uses has its opcode, hence its canonical form. -/
theorem clearUnused_eq_of_agree {w w' : CommandWord} (h : w &&& usedBits w = w' &&& usedBits w) :
    clearUnused w = clearUnused w' := by
  have hop : opField w = opField w' := by
    simpa only [opField_and, opField_usedBits, and_opcodeMask] using congrArg opField h
  rw [clearUnused, clearUnused, h, usedBits_congr hop]

/-- Settles O2: the two words decode to one command, and the step sees nothing else of a word. -/
theorem unusedBitsAreIgnored : Obligations.UnusedBitsAreIgnored := by
  intro s rest w w' hagree
  have hdecode : decode w = decode w' := (decode_eq_iff w w').mpr (clearUnused_eq_of_agree hagree)
  rw [step_command rfl, step_command rfl, hdecode]

/-! ### The opcode map (R63) -/

/-- The row of R63 for one opcode: the match column has that opcode, the mask column covers the opcode only. -/
def rowOfOpcode (mnemonic : String) (op : BitVec 3) : OpcodeRow := ⟨mnemonic, commandWord op 0, commandWord 7 0⟩

/-- The table has one row for each opcode, in their order. -/
theorem opcodeRows_eq : opcodeRows =
    [ rowOfOpcode "SYMOF" 0b000, rowOfOpcode "VALOF" 0b001, rowOfOpcode "PACK" 0b010, rowOfOpcode "UNPACK" 0b011,
      rowOfOpcode "EPUSH" 0b100, rowOfOpcode "EEND" 0b101, rowOfOpcode "DPUSH" 0b110, rowOfOpcode "DEND" 0b111 ] :=
  rfl

@[simp] theorem rowOfOpcode_mnemonic (mnemonic : String) (op : BitVec 3) :
    (rowOfOpcode mnemonic op).mnemonic = mnemonic := rfl

/-- A word selects the row of its opcode and no other. -/
@[simp] theorem rowSelects_rowOfOpcode (mnemonic : String) (op op' : BitVec 3) (arg : BitVec 32) :
    rowSelects (rowOfOpcode mnemonic op') (commandWord op arg) = (op == op') := by
  have hmasked : commandWord op arg &&& commandWord 7 0 = commandWord op 0 := by
    rw [commandWord_and, and_opcodeMask]
    exact congrArg (commandWord op) BitVec.and_zero
  rw [rowSelects, rowOfOpcode, hmasked, Bool.eq_iff_iff, beq_iff_eq, beq_iff_eq, commandWord_inj]
  exact and_iff_left rfl

/-- Exactly one row is selected, and it is named after the command the word decodes to (R63). -/
theorem selectedRow_mnemonic (w : CommandWord) :
    (opcodeRows.filter (rowSelects · w)).map OpcodeRow.mnemonic = [(decode w).mnemonic] := by
  rw [opcodeRows_eq]
  induction w using word_cases with
  | symof | valof | pack | unpack | epush | eend | dpush | dend =>
    simp [decode, Instr.mnemonic]

/-- Bit 34 of a word is the upper bit of its opcode (R62). -/
@[simp] theorem commandWord_getElem_34 (op : BitVec 3) (arg : BitVec 32) : (commandWord op arg)[34] = op[2] :=
  BitVec.getElem_append ..

/-- Bit 33 of a word is the middle bit of its opcode (R62). -/
@[simp] theorem commandWord_getElem_33 (op : BitVec 3) (arg : BitVec 32) : (commandWord op arg)[33] = op[1] :=
  BitVec.getElem_append ..

/-- Settles O3: the row is the one of the word's opcode, and the two upper bits of each opcode are those of its
family. -/
theorem everyWordSelectsOneRow : Obligations.EveryWordSelectsOneRow := by
  intro w
  refine ⟨selectedRow_mnemonic w, ?_⟩
  induction w using word_cases with
  | symof | valof | pack | unpack | epush | eend | dpush | dend => simp [decode, Instr.isLeaf, Instr.family]

end Sys2Proof.Proofs
end

section
/-! The alphabet: `symbol_of` and `value_of` are inverse, and their images are the table and the foreign codes (R81 to
R83); what `SYMOF` and `VALOF` answer (R85, R86); SPC delivers characters of the alphabet only (R88). -/

namespace Sys2Proof.Proofs

open Sys2Proof.Machine Sys2Proof.Laws

/-! ### symbol_of (R82) -/

/-- The closed form of R82 gives the code in each of the 64 rows of R81. -/
theorem alphabetTable_getElem? (v : Value) : alphabetTable[v.toNat]? = some (symbolOf v) := by
  revert v; decide

theorem alphabetTable_length : alphabetTable.length = 64 := rfl

theorem alphabetTable_nodup : alphabetTable.Nodup := by decide

/-- `value_of` undoes `symbol_of`, for each of the 64 values (R83). -/
@[simp] theorem valueOf_symbolOf (v : Value) : valueOf (symbolOf v) = some v := by
  revert v; decide

/-- `symbol_of` is injective, since `value_of` undoes it (R82). -/
theorem symbolOf_injective : Function.Injective symbolOf := fun v w h => by
  simpa using congrArg valueOf h

/-- The image of `symbol_of` is the table (R82). -/
theorem mem_alphabetTable_iff (c : Byte) : c ∈ alphabetTable ↔ ∃ v : Value, symbolOf v = c := by
  constructor
  · intro hc
    obtain ⟨i, hi, rfl⟩ := List.mem_iff_getElem.mp hc
    have hrow := alphabetTable_getElem? (BitVec.ofNat 6 i)
    rw [BitVec.toNat_ofNat, Nat.mod_eq_of_lt (show i < 2 ^ 6 from hi), List.getElem?_eq_getElem hi] at hrow
    exact ⟨BitVec.ofNat 6 i, (Option.some.inj hrow).symm⟩
  · rintro ⟨v, rfl⟩
    exact List.mem_of_getElem? (alphabetTable_getElem? v)

theorem symbolOf_mem_alphabetTable (v : Value) : symbolOf v ∈ alphabetTable :=
  (mem_alphabetTable_iff _).mpr ⟨v, rfl⟩

/-- Settles O6: the rows are compared one by one; injectivity and the image follow. -/
theorem symbolOfIsTheTable : Obligations.SymbolOfIsTheTable :=
  ⟨alphabetTable_getElem?, fun _ _ h => symbolOf_injective h, alphabetTable_length, mem_alphabetTable_iff⟩

/-! ### value_of and the foreign codes (R83) -/

/-- `symbol_of` undoes `value_of`: each of the three ranges of codes comes from its own range of values, and the two
single codes from 62 and 63 (R82, R83). -/
theorem symbolOf_of_valueOf {c : Byte} {v : Value} (h : valueOf c = some v) : symbolOf v = c := by
  simp only [valueOf] at h
  split_ifs at h with hdigit hupper hlower hminus hunder <;> cases h <;> apply BitVec.eq_of_toNat_eq
  on_goal 5 => exact hunder.symm
  on_goal 4 => exact hminus.symm
  all_goals simp only [symbolOf, BitVec.toNat_ofNat]; split_ifs <;> bv_omega

/-- `value_of(c)` is the `v` with `symbol_of(v) = c` when there is one (R83). -/
theorem valueOf_eq_some_iff (c : Byte) (v : Value) : valueOf c = some v ↔ symbolOf v = c :=
  ⟨symbolOf_of_valueOf, fun h => h ▸ valueOf_symbolOf v⟩

/-- A foreign character has no value (R14, R83). -/
theorem isForeign_iff_valueOf (c : Byte) : isForeign c = true ↔ valueOf c = none := Option.isNone_iff_eq_none

/-- A character that is not foreign is one of the alphabet (R14). -/
theorem isForeign_eq_false_iff (c : Byte) : isForeign c = false ↔ c ∈ alphabetTable := by
  rw [mem_alphabetTable_iff]
  constructor
  · intro hc
    obtain ⟨v, hv⟩ := exists_valueOf hc
    exact ⟨v, symbolOf_of_valueOf hv⟩
  · rintro ⟨v, rfl⟩
    simp [isForeign]

/-- The foreign codes are what the five ranges of alphabet codes leave over (R83). -/
theorem isForeign_iff_ranges (c : Byte) : isForeign c = true ↔
    (c.toNat ≤ 0x2C ∨ c.toNat = 0x2E ∨ c.toNat = 0x2F ∨ (0x3A ≤ c.toNat ∧ c.toNat ≤ 0x40) ∨
      (0x5B ≤ c.toNat ∧ c.toNat ≤ 0x5E) ∨ c.toNat = 0x60 ∨ 0x7B ≤ c.toNat) := by
  rw [isForeign_iff_valueOf, valueOf]
  split_ifs <;> simp only [false_iff, true_iff] <;> omega

/-- The other codes are the 64 of the table, each once; so 192 of the 256 are foreign (R83). -/
theorem countP_isForeign : (List.range 256).countP (fun n => isForeign (BitVec.ofNat 8 n)) = 192 := by
  have hmem (n : Nat) : n ∈ (List.range 256).filter (fun n => !isForeign (BitVec.ofNat 8 n)) ↔
      n ∈ alphabetTable.map BitVec.toNat := by
    simp only [List.mem_filter, List.mem_range, Bool.not_eq_true', isForeign_eq_false_iff, List.mem_map]
    constructor
    · rintro ⟨hn, hc⟩
      exact ⟨_, hc, Nat.mod_eq_of_lt hn⟩
    · rintro ⟨c, hc, rfl⟩
      exact ⟨c.isLt, by simpa using hc⟩
  have hperm := (List.perm_ext_iff_of_nodup (List.nodup_range.filter _)
    (alphabetTable_nodup.map fun _ _ => BitVec.eq_of_toNat_eq)).mpr hmem
  have hlength := hperm.length_eq
  rw [List.length_map, alphabetTable_length, ← List.countP_eq_length_filter] at hlength
  have hsum := List.length_eq_countP_add_countP (fun n => isForeign (BitVec.ofNat 8 n)) (l := List.range 256)
  simp only [List.length_range, Bool.not_eq_true, Bool.decide_eq_false] at hsum
  omega

/-! ### Answers of the leaf commands (R85, R86, R97) -/

/-- A leaf command adds its response and changes nothing else (R20, R47). -/
theorem exec_of_isLeaf (i : Instr) (s : State) (h : i.isLeaf = true) :
    exec i s = .next { s with offered := s.offered ++ [(rule i s.spc).2] } := by
  rw [exec_eq_next, rule_fst_of_isLeaf i s.spc h]

/-- `VALOF` raises `InvalidSymbol` on a foreign code (R86). -/
theorem valofRule_of_eq_none {c : Byte} (a : Arch) (h : valueOf c = none) :
    valofRule c a = a.raise .invalidSymbol := by
  rw [valofRule, h]

/-- `VALOF` answers the value of an alphabet character (R86). -/
theorem valofRule_of_eq_some {c : Byte} {v : Value} (a : Arch) (h : valueOf c = some v) :
    valofRule c a = a.respond (Response.value v) := by
  rw [valofRule, h]

/-- Unpack is undefined exactly when one of the four characters is foreign (R91). -/
theorem unpack_eq_none_iff (s1 s2 s3 s4 : Byte) :
    unpack s1 s2 s3 s4 = none ↔ ∃ c ∈ [s1, s2, s3, s4], valueOf c = none := by
  unfold unpack
  split
  · next h1 h2 h3 h4 => simp [h1, h2, h3, h4]
  · next hnot =>
    refine iff_of_true rfl (by_contra fun hall => ?_)
    have hvalue (c : Byte) (hc : c ∈ [s1, s2, s3, s4]) : ∃ v, valueOf c = some v :=
      Option.ne_none_iff_exists'.mp fun hnone => hall ⟨c, hc, hnone⟩
    obtain ⟨v1, h1⟩ := hvalue s1 (by simp)
    obtain ⟨v2, h2⟩ := hvalue s2 (by simp)
    obtain ⟨v3, h3⟩ := hvalue s3 (by simp)
    obtain ⟨v4, h4⟩ := hvalue s4 (by simp)
    exact hnot v1 v2 v3 v4 h1 h2 h3 h4

/-- `UNPACK` raises `InvalidSymbol` when Unpack is undefined (R97). -/
theorem unpackRule_of_eq_none {s1 s2 s3 s4 : Byte} (a : Arch) (h : unpack s1 s2 s3 s4 = none) :
    unpackRule s1 s2 s3 s4 a = a.raise .invalidSymbol := by
  rw [unpackRule, h]

theorem exec_valof_of_eq_none {c : Byte} (s : State) (h : valueOf c = none) :
    exec (.valof c) s = .next { s with offered := s.offered ++ [⟨.invalidSymbol, 0, 0⟩] } := by
  rw [exec_of_isLeaf _ s rfl, rule, valofRule_of_eq_none _ h, raise_snd]

/-- Settles O7: the two functions undo each other; a command that meets a foreign code does so by its own rule. -/
theorem valueOfIsTheInverse : Obligations.ValueOfIsTheInverse := by
  refine ⟨valueOf_eq_some_iff, isForeign_iff_ranges, countP_isForeign, fun c s hc => ⟨?valof, ?dpush⟩,
    fun s1 s2 s3 s4 c s hmem hc => ?unpack⟩
  case valof => exact exec_valof_of_eq_none s ((isForeign_iff_valueOf c).mp hc)
  case dpush => exact ⟨_, exec_eq_next _ s, by simp [rule, dpushRule_dbad, hc]⟩
  case unpack =>
    have hnone := (unpack_eq_none_iff s1 s2 s3 s4).mpr ⟨c, hmem, (isForeign_iff_valueOf c).mp hc⟩
    rw [exec_of_isLeaf _ s rfl, rule, unpackRule_of_eq_none _ hnone, raise_snd]

/-! ### The operand fields of a word (R67) -/

/-- A field of the argument is the field of the word at the same place. -/
theorem extractLsb'_argField (w : CommandWord) (lo len : Nat) (h : lo + len ≤ 32) :
    (argField w).extractLsb' lo len = w.extractLsb' lo len := by
  apply BitVec.eq_of_getLsbD_eq
  intro i hi
  have hlow : lo + i < 32 := by omega
  simp [argField, hlow]

/-- Settles O13: opcode 0 selects the arm of `SYMOF`, a leaf command whose rule cannot fail. -/
theorem symofResult : Obligations.SymofResult := by
  refine ⟨fun w hop => ?_, fun v s => exec_of_isLeaf _ s rfl⟩
  have hop' : opField w = 0 := hop
  simp [decode, hop', argValue, extractLsb'_argField]

/-- Settles O14: opcode 1 selects the arm of `VALOF`, a leaf command with one rule for each outcome of `value_of`. -/
theorem valofResult : Obligations.ValofResult := by
  refine ⟨fun w hop => ?_, fun c s h => exec_valof_of_eq_none s h, fun c v s h => ?_⟩
  · have hop' : opField w = 1 := hop
    simp [decode, hop', argByte, extractLsb'_argField]
  · rw [exec_of_isLeaf _ s rfl, rule, valofRule_of_eq_some _ h]; rfl

/-! ### Delivered characters (R88) -/

/-- The host reads the four characters of a quadruplet back in order (R44, R102). -/
@[simp] theorem responseChars_quartet (q : Quartet Byte) : responseChars (Response.quartet q) = q.toList := by
  obtain ⟨h1, h2, h3, h4⟩ := argByte_fourBytes q.i1 q.i2 q.i3 q.i4
  simp only [argByte] at h1 h2 h3 h4
  simp [responseChars, Response.quartet, quartetDatum, Quartet.toList, h1, h2, h3, h4]

theorem responseChars_of_ne_four {r : Response} (h : r.n ≠ 4) : responseChars r = [] := if_neg h

/-- Pack writes alphabet characters (R90). -/
theorem pack_mem_alphabetTable (b1 b2 b3 : Byte) : ∀ c ∈ (pack b1 b2 b3).toList, c ∈ alphabetTable := by
  simp [pack, Quartet.map, Quartet.toList, symbolOf_mem_alphabetTable]

/-- A command delivers either what Pack gives for some bytes or no quadruplet at all. -/
theorem rule_snd_eq_quartet_or (i : Instr) (a : Arch) :
    (∃ b1 b2 b3, (rule i a).2 = Response.quartet (pack b1 b2 b3)) ∨ (rule i a).2.n ≠ 4 := by
  cases i with
  | symof v => exact .inr (by simp [rule, symofRule, Response.symbol])
  | valof c =>
    refine .inr ?_
    simp only [rule, valofRule]; split <;> simp [Response.value]
  | pack b1 b2 b3 => exact .inl ⟨b1, b2, b3, rfl⟩
  | unpack s1 s2 s3 s4 =>
    refine .inr ?_
    simp only [rule, unpackRule]; split <;> simp [Response.triplet]
  | epush b =>
    obtain ⟨-, hr⟩ | ⟨-, hr⟩ | ⟨-, -, hr⟩ := epushRule_cases b a
    · exact .inr (by simp [rule, hr, Response.nothing])
    · exact .inl ⟨_, _, _, congrArg Prod.snd hr⟩
    · exact .inr (by simp [rule, hr, Response.nothing])
  | eend =>
    simp only [rule, eendRule]; split
    · exact .inl ⟨_, _, _, rfl⟩
    · exact .inl ⟨_, _, _, rfl⟩
    · exact .inr (by simp [Response.nothing])
  | dpush c =>
    refine .inr ?_
    by_cases hp : a.dcnt = 3
    · simp only [rule, dpushRule_of_eq_three c a hp]
      obtain ⟨v, -, -, hr⟩ | ⟨-, hr⟩ := groupResponse_cases a (valueOf c) <;>
        simp [hr, Response.triplet, Response.nothing]
    · simp [rule, dpushRule_of_ne_three c a hp, Response.nothing]
  | dend =>
    refine .inr ?_
    simp only [rule, dendRule]
    split_ifs <;> simp [Response.nothing]

/-- The characters of every response are of the alphabet (R88). -/
theorem rule_chars_mem_alphabetTable (i : Instr) (a : Arch) :
    ∀ c ∈ responseChars (rule i a).2, c ∈ alphabetTable := by
  obtain ⟨b1, b2, b3, hr⟩ | hn := rule_snd_eq_quartet_or i a
  · rw [hr, responseChars_quartet]
    exact pack_mem_alphabetTable b1 b2 b3
  · simp [responseChars_of_ne_four hn]

/-- Settles O8: the one source of quadruplets is Pack, and the datum of `SYMOF` is `symbol_of`. -/
theorem deliveredCharactersAreAlphabet : Obligations.DeliveredCharactersAreAlphabet := by
  intro i s
  refine ⟨_, _, exec_eq_next i s, rfl, rule_chars_mem_alphabetTable i s.spc, ?_⟩
  rintro v rfl
  exact ⟨rfl, symbolOf v, symbolOf_mem_alphabetTable v, rfl⟩

end Sys2Proof.Proofs
end

section
/-! Pack and Unpack: the lanes of one 24-bit number (R93), the same in 8-bit registers (R94), inverse to each other
(R92); what `PACK` and `UNPACK` answer (R95, R97). -/

namespace Sys2Proof.Proofs

open Sys2Proof.Machine Sys2Proof.Laws

/-! ### Lanes (R93) -/

/-- Three bytes side by side as one number. -/
theorem toNat_threeBytes (b1 b2 b3 : Byte) :
    (b1 ++ b2 ++ b3 : BitVec 24).toNat = (b1.toNat * 256 + b2.toNat) * 256 + b3.toNat := by
  have h2 : (b1 ++ b2 ++ b3 : BitVec 24).toNat = (b1 ++ b2).toNat * 2 ^ 8 + b3.toNat := toNat_append _ _
  rw [h2, toNat_append]; rfl

/-- Four values side by side as one number. -/
theorem toNat_fourValues (c1 c2 c3 c4 : Value) :
    (c1 ++ c2 ++ c3 ++ c4 : BitVec 24).toNat = ((c1.toNat * 64 + c2.toNat) * 64 + c3.toNat) * 64 + c4.toNat := by
  have h3 : (c1 ++ c2 ++ c3 ++ c4 : BitVec 24).toNat = (c1 ++ c2 ++ c3).toNat * 2 ^ 6 + c4.toNat := toNat_append _ _
  have h2 : (c1 ++ c2 ++ c3).toNat = (c1 ++ c2).toNat * 2 ^ 6 + c3.toNat := toNat_append _ _
  rw [h3, h2, toNat_append]; rfl

/-- Settles O9: lane by lane, the field of the 24-bit number is worth what R90 and R91 compute. -/
theorem lanesOfTheTriplet : Obligations.LanesOfTheTriplet := by
  refine ⟨fun b1 b2 b3 => ?_, fun c1 c2 c3 c4 => ?_⟩
  · obtain ⟨h1, h2, h3, h4⟩ := packV_toNat b1 b2 b3
    apply quartet_eq_of_toNat <;> rw [toNat_extract, toNat_threeBytes] <;> omega
  · obtain ⟨h1, h2, h3⟩ := unpackV_toNat c1 c2 c3 c4
    apply triplet_eq_of_toNat <;> rw [toNat_extract, toNat_fourValues] <;> omega

/-! ### 8-bit registers (R94) -/

/-- A left shift in a register that drops the bits shifted out is the unbounded one, narrowed. -/
theorem ofNat_shiftLeft {w : Nat} (x k : Nat) : BitVec.ofNat w (x <<< k) = BitVec.ofNat w x <<< k := by
  apply BitVec.eq_of_toNat_eq
  simp [Nat.shiftLeft_eq]

/-- A right shift of what fits a register is the same in the register. -/
theorem ofNat_toNat_ushiftRight {v w : Nat} (hvw : v ≤ w) (x : BitVec v) (k : Nat) :
    BitVec.ofNat w (x.toNat >>> k) = x.setWidth w >>> k := by
  rw [← BitVec.toNat_ushiftRight, BitVec.ofNat_toNat, BitVec.setWidth_ushiftRight hvw]

/-- The final mask of R90 changes nothing in 6 bits, and these are the low bits of the 8-bit register. -/
theorem ofNat_and_laneMask (x : Nat) : BitVec.ofNat 6 (x &&& 0b111111) = (BitVec.ofNat 8 x).setWidth 6 := by
  rw [BitVec.setWidth_ofNat_of_le (by omega), BitVec.ofNat_and]
  exact BitVec.and_allOnes

/-- Settles O10: narrowing to a register goes through each `|`, `&` and shift of R90 and R91, down to the operands. -/
theorem eightBitRegistersSuffice : Obligations.EightBitRegistersSuffice := by
  have hbyte (b : Byte) (k : Nat) := ofNat_toNat_ushiftRight (Nat.le_refl 8) b k
  have hvalue (c : Value) (k : Nat) := ofNat_toNat_ushiftRight (show 6 ≤ 8 by omega) c k
  refine ⟨fun b1 b2 b3 => ?_, fun c1 c2 c3 c4 => ?_⟩
  · simp only [packV, ofNat_and_laneMask]
    simp only [BitVec.ofNat_or, BitVec.ofNat_and, ofNat_shiftLeft, hbyte, BitVec.ofNat_toNat, BitVec.setWidth_eq]
    rfl
  · simp only [unpackV, BitVec.ofNat_or, BitVec.ofNat_and, ofNat_shiftLeft, hvalue, BitVec.ofNat_toNat]
    rfl

/-! ### Inverse laws (R92) -/

/-- UnpackV undoes PackV (R92). -/
theorem unpackV_packV (b1 b2 b3 : Byte) :
    unpackV (packV b1 b2 b3).i1 (packV b1 b2 b3).i2 (packV b1 b2 b3).i3 (packV b1 b2 b3).i4 = ⟨b1, b2, b3⟩ := by
  obtain ⟨p1, p2, p3, p4⟩ := packV_toNat b1 b2 b3
  obtain ⟨u1, u2, u3⟩ :=
    unpackV_toNat (packV b1 b2 b3).i1 (packV b1 b2 b3).i2 (packV b1 b2 b3).i3 (packV b1 b2 b3).i4
  apply triplet_eq_of_toNat <;> dsimp only <;> omega

/-- PackV undoes UnpackV (R92). -/
theorem packV_unpackV (c1 c2 c3 c4 : Value) :
    packV (unpackV c1 c2 c3 c4).b1 (unpackV c1 c2 c3 c4).b2 (unpackV c1 c2 c3 c4).b3 = ⟨c1, c2, c3, c4⟩ := by
  obtain ⟨u1, u2, u3⟩ := unpackV_toNat c1 c2 c3 c4
  obtain ⟨p1, p2, p3, p4⟩ :=
    packV_toNat (unpackV c1 c2 c3 c4).b1 (unpackV c1 c2 c3 c4).b2 (unpackV c1 c2 c3 c4).b3
  apply quartet_eq_of_toNat <;> dsimp only <;> omega

/-- Unpack of alphabet characters is UnpackV of their values (R91). -/
theorem unpack_of_valueOf {s1 s2 s3 s4 : Byte} {c1 c2 c3 c4 : Value} (h1 : valueOf s1 = some c1)
    (h2 : valueOf s2 = some c2) (h3 : valueOf s3 = some c3) (h4 : valueOf s4 = some c4) :
    unpack s1 s2 s3 s4 = some (unpackV c1 c2 c3 c4) := by
  simp only [unpack, h1, h2, h3, h4]

/-- Where Unpack is defined, the four characters have values and it is UnpackV of them (R91). -/
theorem exists_values_of_unpack {s1 s2 s3 s4 : Byte} {t : Triplet} (h : unpack s1 s2 s3 s4 = some t) :
    ∃ c1 c2 c3 c4, valueOf s1 = some c1 ∧ valueOf s2 = some c2 ∧ valueOf s3 = some c3 ∧ valueOf s4 = some c4 ∧
      unpackV c1 c2 c3 c4 = t := by
  unfold unpack at h
  split at h
  · next c1 c2 c3 c4 h1 h2 h3 h4 => exact ⟨c1, c2, c3, c4, h1, h2, h3, h4, Option.some.inj h⟩
  · cases h

/-- Unpack undoes Pack: every character of Pack has the value it was made from (R92). -/
theorem unpack_pack (b1 b2 b3 : Byte) :
    unpack (pack b1 b2 b3).i1 (pack b1 b2 b3).i2 (pack b1 b2 b3).i3 (pack b1 b2 b3).i4 = some ⟨b1, b2, b3⟩ := by
  rw [← unpackV_packV b1 b2 b3]
  exact unpack_of_valueOf (valueOf_symbolOf _) (valueOf_symbolOf _) (valueOf_symbolOf _) (valueOf_symbolOf _)

/-- Pack undoes Unpack where Unpack is defined (R92). -/
theorem pack_of_unpack {s1 s2 s3 s4 : Byte} {t : Triplet} (h : unpack s1 s2 s3 s4 = some t) :
    pack t.b1 t.b2 t.b3 = ⟨s1, s2, s3, s4⟩ := by
  obtain ⟨c1, c2, c3, c4, h1, h2, h3, h4, rfl⟩ := exists_values_of_unpack h
  simp only [pack, packV_unpackV, Quartet.map, symbolOf_of_valueOf h1, symbolOf_of_valueOf h2,
    symbolOf_of_valueOf h3, symbolOf_of_valueOf h4]

/-- Settles O11, by the inverse laws of the values and of the alphabet. -/
theorem packAndUnpackAreInverse : Obligations.PackAndUnpackAreInverse := by
  refine ⟨unpack_pack, fun _ _ _ _ _ => pack_of_unpack, fun s1 s2 s3 s4 => ?_⟩
  simp [unpack_eq_none_iff, isForeign_iff_valueOf]

/-! ### The commands (R95, R97) -/

/-- Settles O15: opcode 2 selects the arm of `PACK`, a leaf command whose rule cannot fail. -/
theorem packResult : Obligations.PackResult := by
  refine ⟨fun w hop => ?_, fun b1 b2 b3 s => exec_of_isLeaf _ s rfl⟩
  have hop' : opField w = 2 := hop
  simp [decode, hop', argByte, extractLsb'_argField]

/-- `UNPACK` answers the triplet where Unpack is defined (R97). -/
theorem unpackRule_of_eq_some {s1 s2 s3 s4 : Byte} {t : Triplet} (a : Arch) (h : unpack s1 s2 s3 s4 = some t) :
    unpackRule s1 s2 s3 s4 a = a.respond (Response.triplet t) := by
  rw [unpackRule, h]

/-- Settles O16: opcode 3 selects the arm of `UNPACK`, a leaf command with one rule for each outcome of Unpack. -/
theorem unpackResult : Obligations.UnpackResult := by
  refine ⟨fun w hop => ?decode, fun s1 s2 s3 s4 s h => ?foreign, fun s1 s2 s3 s4 c1 c2 c3 c4 s h1 h2 h3 h4 => ?good⟩
  case decode =>
    have hop' : opField w = 3 := hop
    simp [decode, hop', argByte, extractLsb'_argField]
  case foreign =>
    have hnone : unpack s1 s2 s3 s4 = none := (unpack_eq_none_iff s1 s2 s3 s4).mpr (by simpa using h)
    rw [exec_of_isLeaf _ s rfl, rule, unpackRule_of_eq_none _ hnone, raise_snd]
  case good =>
    rw [exec_of_isLeaf _ s rfl, rule, unpackRule_of_eq_some _ (unpack_of_valueOf h1 h2 h3 h4)]; rfl

end Sys2Proof.Proofs
end

section
/-! The commands of the two units: operand, next state and response in each phase (R104, R106, R110, R112). -/

namespace Sys2Proof.Proofs

open Sys2Proof.Machine Sys2Proof.Laws

/-! ### The operand fields (R67) -/

theorem decode_of_op_epush {w : CommandWord} (h : w.extractLsb' 32 3 = 0b100) :
    decode w = .epush (w.extractLsb' 0 8) := by
  have hop : opField w = 4 := h
  simp [decode, hop, argByte, extractLsb'_argField]

theorem decode_of_op_eend {w : CommandWord} (h : w.extractLsb' 32 3 = 0b101) : decode w = .eend := by
  have hop : opField w = 5 := h
  simp [decode, hop]

theorem decode_of_op_dpush {w : CommandWord} (h : w.extractLsb' 32 3 = 0b110) :
    decode w = .dpush (w.extractLsb' 0 8) := by
  have hop : opField w = 6 := h
  simp [decode, hop, argByte, extractLsb'_argField]

theorem decode_of_op_dend {w : CommandWord} (h : w.extractLsb' 32 3 = 0b111) : decode w = .dend := by
  have hop : opField w = 7 := h
  simp [decode, hop]

/-! ### ENC (R104, R106) -/

/-- `EPUSH` in each phase that is ever held (R104). -/
theorem epushRule_phase (b : Byte) (a : Arch) :
    (a.ecnt = 0 → epushRule b a = (a.holdFirst b, Response.nothing)) ∧
    (a.ecnt = 1 → epushRule b a = (a.holdSecond b, Response.nothing)) ∧
    (a.ecnt = 2 → epushRule b a = (a.clearEnc, Response.quartet (pack a.eh0 a.eh1 b))) := by
  refine ⟨?_, ?_, ?_⟩ <;> intro h <;> simp [epushRule, h, Arch.respond]

/-- `EEND` in each phase that is ever held (R106). -/
theorem eendRule_phase (a : Arch) :
    (a.ecnt = 0 → eendRule a = (a, Response.nothing)) ∧
    (a.ecnt = 1 → eendRule a = (a.clearEnc, Response.quartet (pack a.eh0 0 0))) ∧
    (a.ecnt = 2 → eendRule a = (a.clearEnc, Response.quartet (pack a.eh0 a.eh1 0))) := by
  refine ⟨?_, ?_, ?_⟩ <;> intro h <;> simp [eendRule, h, Arch.respond]

/-- Settles O17: the next state and the response are those of the phase. -/
theorem epushResult : Obligations.EpushResult := by
  refine ⟨fun w => decode_of_op_epush, fun b s hp => ?_, fun b s hp => ?_, fun b s hp => ?_⟩ <;>
    obtain ⟨h0, h1, h2⟩ := epushRule_phase b s.spc <;> rw [exec_eq_next, rule]
  · rw [h0 hp]; rfl
  · rw [h1 hp]; rfl
  · rw [h2 hp]; rfl

/-- Settles O18: the next state and the response are those of the phase, and under R23 ENC is cleared in every phase. -/
theorem eendResult : Obligations.EendResult := by
  obtain ⟨hidle, -⟩ := endCommandsLeaveUnitsIdle
  refine ⟨fun w => decode_of_op_eend, fun s hp _ => ?_, fun s hp => ?_, fun s hp => ?_, hidle⟩ <;>
    obtain ⟨h0, h1, h2⟩ := eendRule_phase s.spc <;> rw [exec_eq_next, rule]
  · rw [h0 hp]; rfl
  · rw [h1 hp]; rfl
  · rw [h2 hp]; rfl

/-! ### DEC (R110, R112) -/

/-- The verdict of `DEND`: the length first, then the foreign characters (R112, R144). -/
def dendVerdict (a : Arch) : Response :=
  if a.dcnt ≠ 0 then .failure .malformedLength else if a.dbad = true then .failure .invalidSymbol else .nothing

/-- `DEND` clears DEC and answers its verdict (R112). -/
theorem dendRule_eq (a : Arch) : dendRule a = (a.clearDec, dendVerdict a) := by
  unfold dendRule dendVerdict
  split_ifs <;> rfl

/-- `DPUSH` in the three phases that hold (R110). -/
theorem dpushRule_phase (c : Byte) (a : Arch) :
    (a.dcnt = 0 → dpushRule c a =
      ({ a with dh0 := (valueOf c).getD a.dh0, dcnt := 1, dbad := a.dbad || isForeign c }, Response.nothing)) ∧
    (a.dcnt = 1 → dpushRule c a =
      ({ a with dh1 := (valueOf c).getD a.dh1, dcnt := 2, dbad := a.dbad || isForeign c }, Response.nothing)) ∧
    (a.dcnt = 2 → dpushRule c a =
      ({ a with dh2 := (valueOf c).getD a.dh2, dcnt := 3, dbad := a.dbad || isForeign c }, Response.nothing)) := by
  obtain ⟨h0, h1, h2⟩ := holdSymbol_phase a (valueOf c) (a.dbad || isForeign c)
  refine ⟨fun hp => ?_, fun hp => ?_, fun hp => ?_⟩ <;> rw [dpushRule_of_ne_three c a (by simp [hp])]
  · rw [h0 hp]
  · rw [h1 hp]
  · rw [h2 hp]

/-- `DPUSH` delivers the group when every character since the last `DEND` was good (R110). -/
theorem dpushRule_delivers {c : Byte} {v : Value} {a : Arch} (hp : a.dcnt = 3) (hbad : a.dbad = false)
    (hv : valueOf c = some v) :
    dpushRule c a = (a.clearGroup false, Response.triplet (unpackV a.dh0 a.dh1 a.dh2 v)) := by
  simp [dpushRule_of_eq_three c a hp, groupResponse, hbad, isForeign, hv]

/-- `DPUSH` suppresses the group when a foreign character is among them (R110). -/
theorem dpushRule_suppresses {c : Byte} {a : Arch} (hp : a.dcnt = 3) (hbad : (a.dbad || isForeign c) = true) :
    dpushRule c a = (a.clearGroup true, Response.nothing) := by
  rw [dpushRule_of_eq_three c a hp, groupResponse_eq_nothing c a hbad, hbad]

/-- Settles O19: three phases hold, the fourth delivers or suppresses. -/
theorem dpushResult : Obligations.DpushResult := by
  refine ⟨fun w => decode_of_op_dpush, fun c s hp => ?_, fun c s hp => ?_, fun c s hp => ?_,
    fun c v s hp hbad hv => ?_, fun c s hp hbad => ?_⟩ <;>
    obtain ⟨h0, h1, h2⟩ := dpushRule_phase c s.spc <;> rw [exec_eq_next, rule]
  · rw [h0 hp]; rfl
  · rw [h1 hp]; rfl
  · rw [h2 hp]; rfl
  · rw [dpushRule_delivers hp hbad hv, Arch.clearGroup, ← hbad]; rfl
  · rw [dpushRule_suppresses hp (by simpa [isForeign_iff_valueOf] using hbad)]; rfl

/-- Settles O20: the verdict is read before DEC is cleared. -/
theorem dendResult : Obligations.DendResult := by
  refine ⟨fun w => decode_of_op_dend, fun s => ?_⟩
  rw [exec_eq_next, rule, dendRule_eq]; rfl

end Sys2Proof.Proofs
end

section
/-! The two buffer functions: their recursion and lengths (R100, R101), and what one makes of the other's result
(R122). -/

namespace Sys2Proof.Proofs

open Sys2Proof.Machine Sys2Proof.Laws

/-! ### encode_buffer (R100) -/

theorem quartet_length (q : Quartet Byte) : q.toList.length = 4 := rfl

/-- Four characters for every group of three bytes, a short final group included. -/
theorem encodeBuffer_length (x : List Byte) : (encodeBuffer x).length = 4 * ((x.length + 2) / 3) := by
  induction x using encodeBuffer.induct with
  | case1 => rfl
  | case2 b1 => rw [encodeBuffer, quartet_length]; simp
  | case3 b1 b2 => rw [encodeBuffer, quartet_length]; simp
  | case4 b1 b2 b3 rest ih =>
    rw [encodeBuffer, List.length_append, ih, quartet_length, List.length_cons, List.length_cons, List.length_cons]
    omega

/-- Settles O40: the equations are those of the definition. -/
theorem encodeBufferRecursion : Obligations.EncodeBufferRecursion :=
  ⟨rfl, fun _ => rfl, fun _ _ => rfl, fun _ _ _ _ => rfl, encodeBuffer_length⟩

/-- Every character written is one of the alphabet. -/
theorem encodeBuffer_mem_alphabetTable (x : List Byte) : ∀ c ∈ encodeBuffer x, c ∈ alphabetTable := by
  induction x using encodeBuffer.induct with
  | case1 => simp [encodeBuffer]
  | case2 b1 => exact pack_mem_alphabetTable b1 0 0
  | case3 b1 b2 => exact pack_mem_alphabetTable b1 b2 0
  | case4 b1 b2 b3 rest ih =>
    intro c hc
    obtain hc | hc := List.mem_append.mp hc
    · exact pack_mem_alphabetTable b1 b2 b3 c hc
    · exact ih c hc

/-- The whole groups in front do not change the number of fabricated bytes. -/
theorem padCount_group (b1 b2 b3 : Byte) (rest : List Byte) : padCount (b1 :: b2 :: b3 :: rest) = padCount rest := by
  simp only [padCount, List.length_cons, Nat.add_assoc, Nat.add_mod_right]

/-- Zeros written out where `encode_buffer` would fabricate them change nothing (R122). -/
theorem encodeBuffer_append_zeros (x : List Byte) {p : Nat} (hp : p ≤ padCount x) :
    encodeBuffer (x ++ zeros p) = encodeBuffer x := by
  induction x using encodeBuffer.induct with
  | case1 =>
    obtain rfl : p = 0 := by simpa [padCount] using hp
    rfl
  | case2 b1 =>
    obtain rfl | rfl | rfl : p = 0 ∨ p = 1 ∨ p = 2 := by simp [padCount] at hp; omega
    all_goals rfl
  | case3 b1 b2 =>
    obtain rfl | rfl : p = 0 ∨ p = 1 := by simp [padCount] at hp; omega
    all_goals rfl
  | case4 b1 b2 b3 rest ih =>
    rw [padCount_group] at hp
    exact congrArg ((pack b1 b2 b3).toList ++ ·) (ih hp)

/-! ### decode_buffer (R101) -/

theorem decodeBuffer_of_malformed {y : List Byte} (h : y.length % 4 ≠ 0) :
    decodeBuffer y = .err .malformedLength := if_pos h

theorem decodeBuffer_of_foreign {y : List Byte} (hlen : y.length % 4 = 0) (h : y.any isForeign = true) :
    decodeBuffer y = .err .invalidSymbol := by
  simp [decodeBuffer, hlen, h]

theorem decodeBuffer_of_good {y : List Byte} (hlen : y.length % 4 = 0) (h : ∀ c ∈ y, isForeign c = false) :
    decodeBuffer y = .ok (decodeGroups y) := by
  simpa [decodeBuffer, hlen] using h

/-- A string is decoded exactly when it is whole groups of alphabet characters (R101). -/
theorem decodeBuffer_eq_ok_iff (y z : List Byte) :
    decodeBuffer y = .ok z ↔ y.length % 4 = 0 ∧ (∀ c ∈ y, isForeign c = false) ∧ decodeGroups y = z := by
  by_cases hlen : y.length % 4 = 0
  · by_cases h : y.any isForeign = true
    · obtain ⟨c, hc, hf⟩ := List.any_eq_true.mp h
      simp only [decodeBuffer_of_foreign hlen h, reduceCtorEq, false_iff]
      rintro ⟨-, hgood, -⟩
      exact absurd (hgood c hc) (by simp [hf])
    · have hgood : ∀ c ∈ y, isForeign c = false := by simpa using h
      rw [decodeBuffer_of_good hlen hgood, CodecResult.ok.injEq]
      exact ⟨fun hz => ⟨hlen, hgood, hz⟩, fun ⟨_, _, hz⟩ => hz⟩
  · simp [decodeBuffer_of_malformed hlen, hlen]

/-- Unpack of alphabet characters is defined (R91). -/
theorem exists_unpack {s1 s2 s3 s4 : Byte} (h : ∀ c ∈ [s1, s2, s3, s4], isForeign c = false) :
    ∃ t, unpack s1 s2 s3 s4 = some t := by
  refine Option.ne_none_iff_exists'.mp fun hnone => ?_
  obtain ⟨c, hc, hv⟩ := (unpack_eq_none_iff s1 s2 s3 s4).mp hnone
  exact absurd (h c hc) (by simp [isForeign, hv])

/-- A group whose Unpack is defined gives its triplet (R101). -/
theorem decodeGroups_group {s1 s2 s3 s4 : Byte} {t : Triplet} (rest : List Byte)
    (h : unpack s1 s2 s3 s4 = some t) :
    decodeGroups (s1 :: s2 :: s3 :: s4 :: rest) = t.toList ++ decodeGroups rest := by
  rw [decodeGroups, h]

theorem decodeGroups_of_length_lt {y : List Byte} (h : y.length < 4) : decodeGroups y = [] := by
  match y, h with
  | [], _ | [_], _ | [_, _], _ | [_, _, _], _ => rfl

/-- The induction over strings of alphabet characters: a group of four with the triplet it stands for in front of a
string, or a string shorter than a group. -/
theorem goodString_induction {motive : (y : List Byte) → (∀ c ∈ y, isForeign c = false) → Prop}
    (short : ∀ y h, y.length < 4 → motive y h)
    (group : ∀ s1 s2 s3 s4 rest h t, unpack s1 s2 s3 s4 = some t →
      motive rest (fun c hc => h c (List.mem_append_right [s1, s2, s3, s4] hc)) →
      motive (s1 :: s2 :: s3 :: s4 :: rest) h)
    (y : List Byte) (h : ∀ c ∈ y, isForeign c = false) : motive y h := by
  induction y using decodeGroups.induct with
  | case1 s1 s2 s3 s4 rest ih =>
    obtain ⟨t, ht⟩ := exists_unpack fun c hc => h c (List.mem_append_left rest hc)
    exact group s1 s2 s3 s4 rest h t ht (ih _)
  | case2 y hshort =>
    refine short y h ?_
    match y, hshort with
    | [], _ | [_], _ | [_, _], _ | [_, _, _], _ => simp
    | s1 :: s2 :: s3 :: s4 :: rest, hshort => exact absurd rfl (hshort s1 s2 s3 s4 rest)

/-- Three bytes for every whole group. -/
theorem decodeGroups_length (y : List Byte) (h : ∀ c ∈ y, isForeign c = false) :
    (decodeGroups y).length = 3 * (y.length / 4) := by
  induction y, h using goodString_induction with
  | short y _ hlen => rw [decodeGroups_of_length_lt hlen, Nat.div_eq_of_lt hlen]; rfl
  | group s1 s2 s3 s4 rest _ t ht ih =>
    rw [decodeGroups_group rest ht, List.length_append, ih]
    simp only [Triplet.toList, List.length_cons, List.length_nil]
    omega

/-- The `g`-th three bytes are Unpack of the `g`-th four characters. -/
theorem unpack_getD (y : List Byte) (h : ∀ c ∈ y, isForeign c = false) (g : Nat) (hg : g < y.length / 4) :
    unpack (y.getD (4 * g) 0) (y.getD (4 * g + 1) 0) (y.getD (4 * g + 2) 0) (y.getD (4 * g + 3) 0) =
      some ⟨(decodeGroups y).getD (3 * g) 0, (decodeGroups y).getD (3 * g + 1) 0,
        (decodeGroups y).getD (3 * g + 2) 0⟩ := by
  induction y, h using goodString_induction generalizing g with
  | short y _ hlen => omega
  | group s1 s2 s3 s4 rest _ t ht ih =>
    rw [decodeGroups_group rest ht]
    cases g with
    | zero => exact ht
    | succ g => exact ih g (by simp only [List.length_cons] at hg; omega)

/-- Settles O41: the two tests in their order, and the group's bytes by induction over the groups. -/
theorem decodeBufferVerdicts : Obligations.DecodeBufferVerdicts := by
  refine ⟨fun y => decodeBuffer_of_malformed, fun y hlen h => ?_, fun y hlen hgood => ?_⟩
  · exact decodeBuffer_of_foreign hlen (List.any_eq_true.mpr h)
  · refine ⟨_, decodeBuffer_of_good hlen hgood, ?_, unpack_getD y hgood⟩
    rw [decodeGroups_length y hgood]
    omega

/-! ### Round trips (R122) -/

/-- A quadruplet that Pack wrote gives its three bytes back. -/
theorem decodeGroups_pack (b1 b2 b3 : Byte) (rest : List Byte) :
    decodeGroups ((pack b1 b2 b3).toList ++ rest) = [b1, b2, b3] ++ decodeGroups rest :=
  decodeGroups_group rest (unpack_pack b1 b2 b3)

theorem decodeGroups_encodeBuffer (x : List Byte) : decodeGroups (encodeBuffer x) = x ++ zeros (padCount x) := by
  induction x using encodeBuffer.induct with
  | case1 => rfl
  | case2 b1 => exact decodeGroups_pack b1 0 0 []
  | case3 b1 b2 => exact decodeGroups_pack b1 b2 0 []
  | case4 b1 b2 b3 rest ih => rw [encodeBuffer, decodeGroups_pack, ih, padCount_group]; rfl

/-- Decoding an encoder's output returns the payload and the fabricated zeros (R122, a). -/
theorem decodeBuffer_encodeBuffer (x : List Byte) :
    decodeBuffer (encodeBuffer x) = .ok (x ++ zeros (padCount x)) := by
  refine (decodeBuffer_eq_ok_iff _ _).mpr ⟨?_, fun c hc => ?_, decodeGroups_encodeBuffer x⟩
  · rw [encodeBuffer_length, Nat.mul_mod_right]
  · exact (isForeign_eq_false_iff c).mpr (encodeBuffer_mem_alphabetTable x c hc)

/-- Settles O46. -/
theorem decodeOfEncodedBuffer : Obligations.DecodeOfEncodedBuffer := by
  refine fun x => ⟨decodeBuffer_encodeBuffer x, ?_⟩
  rw [padCount]
  omega

theorem encodeBuffer_decodeGroups (y : List Byte) (h : ∀ c ∈ y, isForeign c = false) (hlen : y.length % 4 = 0) :
    encodeBuffer (decodeGroups y) = y := by
  induction y, h using goodString_induction with
  | short y _ hshort =>
    obtain rfl : y = [] := List.eq_nil_of_length_eq_zero (by omega)
    rfl
  | group s1 s2 s3 s4 rest _ t ht ih =>
    have hrest : rest.length % 4 = 0 := by simp only [List.length_cons] at hlen; omega
    rw [decodeGroups_group rest ht]
    calc encodeBuffer (t.toList ++ decodeGroups rest)
        = (pack t.b1 t.b2 t.b3).toList ++ encodeBuffer (decodeGroups rest) := rfl
      _ = s1 :: s2 :: s3 :: s4 :: rest := by rw [pack_of_unpack ht, ih hrest]; rfl

/-- Settles O47, by induction over the groups of a decoded string. -/
theorem encodeOfDecodedString : Obligations.EncodeOfDecodedString := by
  intro y z h
  obtain ⟨hlen, hgood, rfl⟩ := (decodeBuffer_eq_ok_iff y z).mp h
  exact encodeBuffer_decodeGroups y hgood hlen

/-- Settles O48: the zeros added are those `encode_buffer` fabricates; on one length they are as many, so decoding
separates the buffers. -/
theorem lostLength : Obligations.LostLength := by
  refine ⟨fun x hx => ⟨?_, ?_⟩, fun x hx => ?_, fun x x' hlen h => ?_⟩
  · exact encodeBuffer_append_zeros x (p := 1) (by simp [padCount, hx])
  · exact encodeBuffer_append_zeros x (p := 2) (by simp [padCount, hx])
  · exact encodeBuffer_append_zeros x (p := 1) (by simp [padCount, hx])
  · have hdecoded : x ++ zeros (padCount x) = x' ++ zeros (padCount x') := by
      rw [← decodeGroups_encodeBuffer, ← decodeGroups_encodeBuffer, h]
    exact (List.append_inj hdecoded hlen).1

end Sys2Proof.Proofs
end

section
/-! SUPPORT. The two units side by side: a command of one unit reads and writes that unit's half of the state (R21,
R32), so a run of one unit's commands from its idle state is the run from reset beside the other unit's fields. -/

namespace Sys2Proof.Proofs

open Sys2Proof.Machine Sys2Proof.Laws

/-- The state with ENC's fields of the first and DEC's fields of the second. -/
def unitsOf (enc dec : Arch) : Arch := { dec with eh0 := enc.eh0, eh1 := enc.eh1, ecnt := enc.ecnt }

@[simp] theorem unitsOf_self (a : Arch) : unitsOf a a = a := rfl
@[simp] theorem unitsOf_encPart (e d : Arch) : (unitsOf e d).encPart = e.encPart := rfl
@[simp] theorem unitsOf_decPart (e d : Arch) : (unitsOf e d).decPart = d.decPart := rfl

theorem unitsOf_congr_enc {e e' : Arch} (d : Arch) (h : e.encPart = e'.encPart) : unitsOf e d = unitsOf e' d := by
  simp only [Arch.encPart, Prod.mk.injEq] at h
  obtain ⟨h0, h1, hcnt⟩ := h
  simp only [unitsOf, h0, h1, hcnt]

theorem unitsOf_congr_dec {d d' : Arch} (e : Arch) (h : d.decPart = d'.decPart) : unitsOf e d = unitsOf e d' := by
  simp only [Arch.decPart, Prod.mk.injEq] at h
  obtain ⟨⟨h0, h1, h2⟩, hcnt, hbad⟩ := h
  simp only [unitsOf, h0, h1, h2, hcnt, hbad]

/-! ### One command -/

theorem holdSymbol_unitsOf (e d : Arch) (v : Option Value) (bad : Bool) :
    (unitsOf e d).holdSymbol v bad = unitsOf e (d.holdSymbol v bad) := by
  cases v with
  | none => rfl
  | some v => simp only [Arch.holdSymbol, Arch.setDh, unitsOf]; split <;> rfl

/-- A command of ENC works on ENC's fields alone. -/
theorem rule_unitsOf_enc (i : Instr) (e d : Arch) (h : i.family = .enc) :
    rule i (unitsOf e d) = (unitsOf (rule i e).1 d, (rule i e).2) := by
  cases i with
  | epush b => simp only [rule, epushRule, unitsOf]; split <;> rfl
  | eend => simp only [rule, eendRule, unitsOf]; split <;> rfl
  | symof | valof | pack | unpack | dpush | dend => cases h

/-- A command of DEC works on DEC's fields alone. -/
theorem rule_unitsOf_dec (i : Instr) (e d : Arch) (h : i.family = .dec) :
    rule i (unitsOf e d) = (unitsOf e (rule i d).1, (rule i d).2) := by
  cases i with
  | dpush c =>
    by_cases hp : d.dcnt = 3
    · simp only [rule, dpushRule_of_eq_three c d hp, dpushRule_of_eq_three c (unitsOf e d) hp]; rfl
    · simp only [rule, dpushRule_of_ne_three c d hp, dpushRule_of_ne_three c (unitsOf e d) hp, holdSymbol_unitsOf]; rfl
  | dend => simp only [rule, dendRule_eq]; rfl
  | symof | valof | pack | unpack | epush | eend => cases h

/-! ### Runs -/

theorem ruleRun_unitsOf_enc (is : List Instr) (e d : Arch) (h : ∀ i ∈ is, i.family = .enc) :
    ruleRun is (unitsOf e d) = (unitsOf (ruleRun is e).1 d, (ruleRun is e).2) := by
  induction is generalizing e with
  | nil => rfl
  | cons i is ih =>
    obtain ⟨hi, his⟩ := List.forall_mem_cons.mp h
    simp only [ruleRun_cons, rule_unitsOf_enc i e d hi, ih _ his]

theorem ruleRun_unitsOf_dec (is : List Instr) (e d : Arch) (h : ∀ i ∈ is, i.family = .dec) :
    ruleRun is (unitsOf e d) = (unitsOf e (ruleRun is d).1, (ruleRun is d).2) := by
  induction is generalizing d with
  | nil => rfl
  | cons i is ih =>
    obtain ⟨hi, his⟩ := List.forall_mem_cons.mp h
    simp only [ruleRun_cons, rule_unitsOf_dec i e d hi, ih _ his]

/-- From an idle ENC, its commands do what they do from reset. -/
theorem ruleRun_of_encIdle {a : Arch} (hidle : a.encIdle) {is : List Instr} (h : ∀ i ∈ is, i.family = .enc) :
    ruleRun is a = (unitsOf (ruleRun is Arch.reset).1 a, (ruleRun is Arch.reset).2) := by
  rw [← ruleRun_unitsOf_enc is Arch.reset a h, unitsOf_congr_enc (e := Arch.reset) a hidle.symm, unitsOf_self]

/-- From an idle DEC, its commands do what they do from reset. -/
theorem ruleRun_of_decIdle {a : Arch} (hidle : a.decIdle) {is : List Instr} (h : ∀ i ∈ is, i.family = .dec) :
    ruleRun is a = (unitsOf a (ruleRun is Arch.reset).1, (ruleRun is Arch.reset).2) := by
  rw [← ruleRun_unitsOf_dec is a Arch.reset h, unitsOf_congr_dec (d := Arch.reset) a hidle.symm, unitsOf_self]

/-- The response to a command is what its rule gives in the state the earlier ones lead to (R47, R53). -/
theorem ruleRun_getElem? (is : List Instr) (a : Arch) (n : Nat) :
    (ruleRun is a).2[n]? = is[n]?.map fun i => (rule i (ruleRun (is.take n) a).1).2 := by
  induction is generalizing a n with
  | nil => rfl
  | cons i is ih =>
    cases n with
    | zero => rfl
    | succ n => simp [ih]

end Sys2Proof.Proofs
end

section
/-! Encode transactions on the machine (R102, R118, R120): what ENC holds after some pushes, what each command answers,
and that the characters delivered are those of `encode_buffer`. -/

namespace Sys2Proof.Proofs

open Sys2Proof.Machine Sys2Proof.Laws

/-! ### What ENC holds (R23) -/

/-- ENC's fields are the bytes after the whole groups, and their number. -/
theorem archOfHistory_encPart (x y : List Byte) :
    (archOfHistory x y).encPart =
      (x.getD (3 * (x.length / 3)) 0, x.getD (3 * (x.length / 3) + 1) 0, BitVec.ofNat 2 (x.length % 3)) := by
  simp [archOfHistory, Arch.encPart, List.getElem?_drop]

/-- At phase 1 the byte held is the last one pushed. -/
theorem archOfHistory_of_mod_eq_one (x y : List Byte) (h : x.length % 3 = 1) :
    (archOfHistory x y).ecnt = 1 ∧ (archOfHistory x y).eh0 = x.getD (x.length - 1) 0 := by
  have henc := archOfHistory_encPart x y
  rw [h, show 3 * (x.length / 3) = x.length - 1 by omega] at henc
  simp only [Arch.encPart, Prod.mk.injEq] at henc
  obtain ⟨h0, -, hcnt⟩ := henc
  exact ⟨hcnt, h0⟩

/-- At phase 2 the bytes held are the last two pushed. -/
theorem archOfHistory_of_mod_eq_two (x y : List Byte) (h : x.length % 3 = 2) :
    (archOfHistory x y).ecnt = 2 ∧ (archOfHistory x y).eh0 = x.getD (x.length - 2) 0 ∧
      (archOfHistory x y).eh1 = x.getD (x.length - 1) 0 := by
  have henc := archOfHistory_encPart x y
  rw [h, show 3 * (x.length / 3) = x.length - 2 by omega, show x.length - 2 + 1 = x.length - 1 by omega] at henc
  simp only [Arch.encPart, Prod.mk.injEq] at henc
  obtain ⟨h0, h1, hcnt⟩ := henc
  exact ⟨hcnt, h0, h1⟩

/-- A whole group in front is past. -/
theorem archOfHistory_group (b1 b2 b3 : Byte) (rest y : List Byte) :
    archOfHistory (b1 :: b2 :: b3 :: rest) y = archOfHistory rest y := by
  have hlen : (b1 :: b2 :: b3 :: rest).length = rest.length + 3 := rfl
  simp only [archOfHistory, hlen, Nat.add_div_right _ (show 0 < 3 by omega), Nat.mul_succ, Nat.add_mod_right,
    List.drop_succ_cons]

/-! ### What each command answers (R118) -/

/-- A push delivers exactly when it completes a group, the group of the last three bytes. -/
theorem epushRule_archOfHistory_snd (b : Byte) (x y : List Byte) :
    (epushRule b (archOfHistory x y)).2 =
      if x.length % 3 = 2 then .quartet (pack (x.getD (x.length - 2) 0) (x.getD (x.length - 1) 0) b)
      else .nothing := by
  obtain ⟨hzero, hone, htwo⟩ := epushRule_phase b (archOfHistory x y)
  obtain h | h | h : x.length % 3 = 0 ∨ x.length % 3 = 1 ∨ x.length % 3 = 2 := by omega
  · rw [hzero (congrArg (BitVec.ofNat 2) h), if_neg (by omega)]
  · rw [hone (congrArg (BitVec.ofNat 2) h), if_neg (by omega)]
  · obtain ⟨hcnt, h0, h1⟩ := archOfHistory_of_mod_eq_two x y h
    rw [htwo hcnt, if_pos h, h0, h1]

/-- `EEND` delivers the short final group, its missing bytes zeros. -/
theorem eendRule_archOfHistory_snd (x y : List Byte) :
    (eendRule (archOfHistory x y)).2 =
      if x.length % 3 = 0 then .nothing
      else if x.length % 3 = 1 then .quartet (pack (x.getD (x.length - 1) 0) 0 0)
      else .quartet (pack (x.getD (x.length - 2) 0) (x.getD (x.length - 1) 0) 0) := by
  obtain ⟨hzero, hone, htwo⟩ := eendRule_phase (archOfHistory x y)
  obtain h | h | h : x.length % 3 = 0 ∨ x.length % 3 = 1 ∨ x.length % 3 = 2 := by omega
  · rw [hzero (congrArg (BitVec.ofNat 2) h), if_pos h]
  · obtain ⟨hcnt, h0⟩ := archOfHistory_of_mod_eq_one x y h
    rw [hone hcnt, if_neg (by omega), if_pos h, h0]
  · obtain ⟨hcnt, h0, h1⟩ := archOfHistory_of_mod_eq_two x y h
    rw [htwo hcnt, if_neg (by omega), if_neg (by omega), h0, h1]

/-! ### Runs of pushes and whole transactions -/

/-- The responses to the pushes of a buffer into an idle ENC. -/
def epushResponses (x : List Byte) : List Response := (ruleRun (x.map .epush) Arch.reset).2

/-- The response to the `EEND` after those pushes. -/
def eendResponse (x : List Byte) : Response := (eendRule (archOfHistory x [])).2

theorem ruleRun_epushes_fst (x x0 y : List Byte) :
    (ruleRun (x.map .epush) (archOfHistory x0 y)).1 = archOfHistory (x0 ++ x) y := by
  induction x generalizing x0 with
  | nil => simp
  | cons b x ih => simpa [rule, epushRule_archOfHistory] using ih (x0 ++ [b])

/-- Pushes from reset make the history of the buffer. -/
theorem ruleRun_epushes_reset (x : List Byte) :
    ruleRun (x.map .epush) Arch.reset = (archOfHistory x [], epushResponses x) :=
  Prod.ext (ruleRun_epushes_fst x [] []) rfl

theorem epushes_family (x : List Byte) : ∀ i ∈ x.map Instr.epush, i.family = .enc := by
  simp [Instr.family]

theorem encodeTransaction_family (x : List Byte) : ∀ i ∈ encodeTransaction x, i.family = .enc := by
  simp [encodeTransaction, or_imp, forall_and, Instr.family]

/-- The pushes of a buffer leave what it determines in ENC and nothing in DEC. -/
theorem run_epushes (s : State) (x : List Byte) (hidle : s.spc.encIdle) :
    run x.length (s.running (x.map .epush)) = .next { s with
      spc := unitsOf (archOfHistory x []) s.spc, pending := [], offered := s.offered ++ epushResponses x } := by
  have hrun := run_running s (x.map .epush)
  rwa [List.length_map, ruleRun_of_encIdle hidle (epushes_family x), ruleRun_epushes_reset] at hrun

/-- A whole encode transaction leaves no trace but its responses. -/
theorem run_encodeTransaction (s : State) (x : List Byte) (hidle : s.spc.encIdle) :
    run (x.length + 1) (s.running (encodeTransaction x)) = .next { s with
      pending := [], offered := s.offered ++ (epushResponses x ++ [eendResponse x]) } := by
  have hreset : ruleRun (encodeTransaction x) Arch.reset = (Arch.reset, epushResponses x ++ [eendResponse x]) := by
    rw [encodeTransaction, ruleRun_append, ruleRun_epushes_reset]
    simp only [ruleRun_cons, ruleRun_nil, rule, eendRule_archOfHistory, archReset_eq_archOfHistory, eendResponse]
  have hspc : unitsOf Arch.reset s.spc = s.spc := unitsOf_congr_enc (e := Arch.reset) s.spc hidle.symm
  have hrun := run_running s (encodeTransaction x)
  rwa [ruleRun_of_encIdle hidle (encodeTransaction_family x), hreset, hspc,
    show (encodeTransaction x).length = x.length + 1 by simp [encodeTransaction]] at hrun

theorem epushResponses_length (x : List Byte) : (epushResponses x).length = x.length := by
  simp [epushResponses]

/-- The items pushed before the `i`-th are those of the whole list. -/
theorem getD_take (l : List Byte) {i j : Nat} (h : j < i) : (l.take i).getD j 0 = l.getD j 0 := by simp [h]

/-- The response to each push of a transaction (R118). -/
theorem epushResponses_getElem? (x : List Byte) (i : Nat) (hi : i < x.length) :
    (epushResponses x)[i]? = some
      (if i % 3 = 2 then .quartet (pack (x.getD (i - 2) 0) (x.getD (i - 1) 0) (x.getD i 0)) else .nothing) := by
  have hlen : (x.take i).length = i := List.length_take_of_le (Nat.le_of_lt hi)
  rw [epushResponses, ruleRun_getElem?, ← List.map_take, ruleRun_epushes_reset]
  simp only [List.getElem?_map, List.getElem?_eq_getElem hi, Option.map_some, rule, epushRule_archOfHistory_snd, hlen]
  split
  · rw [getD_take x (by omega), getD_take x (by omega), List.getD_eq_getElem _ _ hi]
  · rfl

/-! ### The characters delivered -/

@[simp] theorem responseChars_nothing : responseChars .nothing = [] := rfl

@[simp] theorem encodeResult_nil : encodeResult [] = [] := rfl

@[simp] theorem encodeResult_cons (r : Response) (rs : List Response) :
    encodeResult (r :: rs) = responseChars r ++ encodeResult rs := rfl

/-- A short group delivers nothing by its pushes. -/
@[simp] theorem epushResponses_one (b1 : Byte) : epushResponses [b1] = [.nothing] := rfl

@[simp] theorem epushResponses_two (b1 b2 : Byte) : epushResponses [b1, b2] = [.nothing, .nothing] := rfl

/-- The first three pushes deliver their group, and the others go on from an idle ENC. -/
theorem epushResponses_group (b1 b2 b3 : Byte) (rest : List Byte) :
    epushResponses (b1 :: b2 :: b3 :: rest) =
      .nothing :: .nothing :: .quartet (pack b1 b2 b3) :: epushResponses rest := by
  have happend := ruleRun_append [.epush b1, .epush b2, .epush b3] (rest.map .epush) Arch.reset
  rw [ruleRun_three_epush Arch.reset b1 b2 b3 rfl] at happend
  exact congrArg Prod.snd happend

theorem encodeResult_group (b1 b2 b3 : Byte) (rest : List Byte) (rs : List Response) :
    encodeResult (epushResponses (b1 :: b2 :: b3 :: rest) ++ rs) =
      (pack b1 b2 b3).toList ++ encodeResult (epushResponses rest ++ rs) := by
  simp [epushResponses_group]

/-- A transaction delivers the characters of `encode_buffer` (R118). -/
theorem encodeResult_transaction (x : List Byte) :
    encodeResult (epushResponses x ++ [eendResponse x]) = encodeBuffer x := by
  induction x using encodeBuffer.induct with
  | case1 => rfl
  | case2 b1 =>
    have hend : eendResponse [b1] = .quartet (pack b1 0 0) := eendRule_archOfHistory_snd [b1] []
    simp [hend, encodeBuffer]
  | case3 b1 b2 =>
    have hend : eendResponse [b1, b2] = .quartet (pack b1 b2 0) := eendRule_archOfHistory_snd [b1, b2] []
    simp [hend, encodeBuffer]
  | case4 b1 b2 b3 rest ih =>
    have hend : eendResponse (b1 :: b2 :: b3 :: rest) = eendResponse rest := by
      rw [eendResponse, archOfHistory_group, eendResponse]
    rw [encodeResult_group, hend, ih, encodeBuffer]

/-- The pushes alone deliver the characters of the whole groups (R120). -/
theorem encodeResult_epushResponses (x : List Byte) :
    encodeResult (epushResponses x) = encodeBuffer (x.take (3 * (x.length / 3))) := by
  induction x using encodeBuffer.induct with
  | case1 => rfl
  | case2 b1 => simp [encodeBuffer]
  | case3 b1 b2 => simp [encodeBuffer]
  | case4 b1 b2 b3 rest ih =>
    have htake : (b1 :: b2 :: b3 :: rest).take (3 * ((b1 :: b2 :: b3 :: rest).length / 3)) =
        b1 :: b2 :: b3 :: rest.take (3 * (rest.length / 3)) := by
      have hlen : (b1 :: b2 :: b3 :: rest).length = rest.length + 3 := rfl
      rw [hlen, Nat.add_div_right _ (by omega), Nat.mul_succ]; rfl
    have hgroup := encodeResult_group b1 b2 b3 rest []
    rw [List.append_nil, List.append_nil, ih] at hgroup
    rw [hgroup, htake, encodeBuffer]

/-- Four characters from each response with `n = 4` and none from any other (R102). -/
theorem encodeResult_length (rs : List Response) :
    (encodeResult rs).length = 4 * rs.countP (fun r => r.n == 4) := by
  induction rs with
  | nil => rfl
  | cons r rs ih =>
    rw [encodeResult_cons, List.length_append, ih, List.countP_cons]
    by_cases h : r.n = 4
    · have hfour : (responseChars r).length = 4 := by rw [responseChars, if_pos h]; rfl
      rw [hfour, if_pos (beq_iff_eq.mpr h)]
      omega
    · rw [responseChars_of_ne_four h, if_neg (beq_iff_eq.not.mpr h)]
      simp

/-- Settles O42: the responses of the transaction, one by one and as the characters they deliver; the quadruplets are
counted by the characters. -/
theorem encoderRefinement : Obligations.EncoderRefinement := by
  intro s x hidle
  have hlen := epushResponses_length x
  refine ⟨_, _, run_encodeTransaction s x hidle, rfl, rfl, rfl, hidle, rfl, encodeResult_transaction x,
    fun i hi => ?push, ?eend, ?length, ?count⟩
  case push => rw [List.getElem?_append_left (by omega), epushResponses_getElem? x i hi]
  case eend =>
    rw [List.getElem?_append_right (by omega), hlen, Nat.sub_self]
    exact congrArg some (eendRule_archOfHistory_snd x [])
  case length => simp [hlen]
  case count =>
    have hchars := congrArg List.length (encodeResult_transaction x)
    rw [encodeResult_length, encodeBuffer_length] at hchars
    omega

end Sys2Proof.Proofs
end

section
/-! Decode transactions on the machine (R103, R119, R120): what each push and the `DEND` answer, and that the bytes
delivered are those of `decode_buffer`. The lengths of both results (R121). -/

namespace Sys2Proof.Proofs

open Sys2Proof.Machine Sys2Proof.Laws

/-! ### What each command answers (R119) -/

theorem any_isForeign_eq_false_iff (y : List Byte) : y.any isForeign = false ↔ ∀ c ∈ y, isForeign c = false := by
  simp

/-- DEC's phase is the number of characters after the whole groups (R24). -/
theorem archOfHistory_dcnt_toNat (x y : List Byte) : (archOfHistory x y).dcnt.toNat = y.length % 4 := by
  rw [archOfHistory, BitVec.toNat_ofNat]
  omega

/-- A push that completes no group delivers nothing, nor does one with a foreign character among those pushed. -/
theorem dpushRule_archOfHistory_nothing {c : Byte} (x : List Byte) {y : List Byte}
    (h : y.length % 4 ≠ 3 ∨ (y ++ [c]).any isForeign = true) :
    (dpushRule c (archOfHistory x y)).2 = .nothing := by
  by_cases hp : (archOfHistory x y).dcnt = 3
  · have hmod : y.length % 4 = 3 := by rw [← archOfHistory_dcnt_toNat x y, hp]; rfl
    have hbad : (y.any isForeign || isForeign c) = true := by
      simpa [List.any_append] using h.resolve_left (absurd hmod)
    rw [dpushRule_suppresses hp hbad]
  · rw [dpushRule_of_ne_three _ _ hp]

/-- A push that completes a group of a string without a foreign character delivers Unpack of the last four
characters. -/
theorem dpushRule_archOfHistory_triplet {c : Byte} (x : List Byte) {y : List Byte} (hlen : y.length % 4 = 3)
    (hgood : (y ++ [c]).any isForeign = false) :
    ∃ t, unpack (y.getD (y.length - 3) 0) (y.getD (y.length - 2) 0) (y.getD (y.length - 1) 0) c = some t ∧
      (dpushRule c (archOfHistory x y)).2 = .triplet t := by
  obtain ⟨whole, group, rfl, hwhole, hgroup⟩ := exists_groups 4 (by decide) y
  rw [length_groups_mod hwhole hgroup] at hlen
  match group, hlen with
  | [c1, c2, c3], _ =>
    rw [List.append_assoc, any_isForeign_eq_false_iff] at hgood
    obtain ⟨t, ht⟩ := exists_unpack fun d hd => hgood d (List.mem_append_right whole hd)
    obtain ⟨v1, v2, v3, v4, h1, h2, h3, h4, rfl⟩ := exists_values_of_unpack ht
    have hbad : (whole ++ [c1, c2, c3]).any isForeign = false := by
      rw [any_isForeign_eq_false_iff]
      exact fun d hd => hgood d (by rw [← List.append_assoc]; exact List.mem_append_left [c] hd)
    refine ⟨_, by simpa using ht, ?_⟩
    rw [archOfHistory_decGroups x hwhole hgroup, hbad, dpushRule_delivers rfl rfl h4]
    simp [heldValue, h1, h2, h3]

/-- `DEND` gives the verdict on the string pushed. -/
theorem dendRule_archOfHistory_snd (x y : List Byte) :
    (dendRule (archOfHistory x y)).2 =
      if y.length % 4 ≠ 0 then .failure .malformedLength
      else if y.any isForeign = true then .failure .invalidSymbol
      else .nothing := by
  have hphase : (archOfHistory x y).dcnt ≠ 0 ↔ y.length % 4 ≠ 0 := by
    rw [Ne, ← BitVec.toNat_inj, archOfHistory_dcnt_toNat]; rfl
  simp only [dendRule_eq, dendVerdict, hphase]
  rfl

/-! ### Runs of pushes and whole transactions -/

/-- The responses to the pushes of a string into an idle DEC. -/
def dpushResponses (y : List Byte) : List Response := (ruleRun (y.map .dpush) Arch.reset).2

/-- The response to the `DEND` after those pushes. -/
def dendResponse (y : List Byte) : Response := (dendRule (archOfHistory [] y)).2

theorem ruleRun_dpushes_fst (y x y0 : List Byte) :
    (ruleRun (y.map .dpush) (archOfHistory x y0)).1 = archOfHistory x (y0 ++ y) := by
  induction y generalizing y0 with
  | nil => simp
  | cons c y ih => simpa [rule, dpushRule_archOfHistory] using ih (y0 ++ [c])

/-- Pushes from reset make the history of the string. -/
theorem ruleRun_dpushes_reset (y : List Byte) :
    ruleRun (y.map .dpush) Arch.reset = (archOfHistory [] y, dpushResponses y) :=
  Prod.ext (ruleRun_dpushes_fst y [] []) rfl

theorem dpushes_family (y : List Byte) : ∀ i ∈ y.map Instr.dpush, i.family = .dec := by
  simp [Instr.family]

theorem decodeTransaction_family (y : List Byte) : ∀ i ∈ decodeTransaction y, i.family = .dec := by
  simp [decodeTransaction, or_imp, forall_and, Instr.family]

/-- The pushes of a string leave what it determines in DEC and nothing in ENC. -/
theorem run_dpushes (s : State) (y : List Byte) (hidle : s.spc.decIdle) :
    run y.length (s.running (y.map .dpush)) = .next { s with
      spc := unitsOf s.spc (archOfHistory [] y), pending := [], offered := s.offered ++ dpushResponses y } := by
  have hrun := run_running s (y.map .dpush)
  rwa [List.length_map, ruleRun_of_decIdle hidle (dpushes_family y), ruleRun_dpushes_reset] at hrun

/-- A whole decode transaction leaves no trace but its responses. -/
theorem run_decodeTransaction (s : State) (y : List Byte) (hidle : s.spc.decIdle) :
    run (y.length + 1) (s.running (decodeTransaction y)) = .next { s with
      pending := [], offered := s.offered ++ (dpushResponses y ++ [dendResponse y]) } := by
  have hreset : ruleRun (decodeTransaction y) Arch.reset = (Arch.reset, dpushResponses y ++ [dendResponse y]) := by
    rw [decodeTransaction, ruleRun_append, ruleRun_dpushes_reset]
    simp only [ruleRun_cons, ruleRun_nil, rule, dendRule_archOfHistory, archReset_eq_archOfHistory, dendResponse]
  have hspc : unitsOf s.spc Arch.reset = s.spc := unitsOf_congr_dec (d := Arch.reset) s.spc hidle.symm
  have hrun := run_running s (decodeTransaction y)
  rwa [ruleRun_of_decIdle hidle (decodeTransaction_family y), hreset, hspc,
    show (decodeTransaction y).length = y.length + 1 by simp [decodeTransaction]] at hrun

theorem dpushResponses_length (y : List Byte) : (dpushResponses y).length = y.length := by
  simp [dpushResponses]

/-- The response to each push of a transaction is the one its rule gives after the earlier characters. -/
theorem dpushResponses_getElem? (y : List Byte) (i : Nat) (hi : i < y.length) :
    (dpushResponses y)[i]? = some (dpushRule (y.getD i 0) (archOfHistory [] (y.take i))).2 := by
  rw [dpushResponses, ruleRun_getElem?, ← List.map_take, ruleRun_dpushes_reset]
  simp only [List.getElem?_map, List.getElem?_eq_getElem hi, Option.map_some, rule, List.getD_eq_getElem _ _ hi]

/-! ### The group of the first foreign character (R119) -/

theorem take_append_getD (y : List Byte) (i : Nat) (hi : i < y.length) :
    y.take i ++ [y.getD i 0] = y.take (i + 1) := by
  rw [List.getD_eq_getElem _ _ hi, List.take_append_getElem hi]

/-- At the end of a group, a foreign character has come exactly when the first one's group is this or an earlier
one. -/
theorem any_take_iff_firstForeignGroup (y : List Byte) (i : Nat) (hmod : i % 4 = 3) :
    (y.take (i + 1)).any isForeign = true ↔ ∃ g, firstForeignGroup y = some g ∧ g ≤ i / 4 := by
  cases hfind : y.findIdx? isForeign with
  | none =>
    have hgood : ∀ c ∈ y, isForeign c = false := List.findIdx?_eq_none_iff.mp hfind
    have hnone : (y.take (i + 1)).any isForeign = false :=
      (any_isForeign_eq_false_iff _).mpr fun c hc => hgood c (List.mem_of_mem_take hc)
    simp [firstForeignGroup, hfind, hnone]
  | some k =>
    obtain ⟨hk, hforeign, hfirst⟩ := List.findIdx?_eq_some_iff_getElem.mp hfind
    have hgroup : (∃ g, firstForeignGroup y = some g ∧ g ≤ i / 4) ↔ k ≤ i := by
      simp only [firstForeignGroup, hfind, Option.map_some, Option.some.injEq, exists_eq_left']
      omega
    rw [hgroup, List.any_eq_true]
    constructor
    · rintro ⟨c, hc, hcf⟩
      obtain ⟨j, hj, rfl⟩ := List.mem_take_iff_getElem.mp hc
      by_contra hlt
      exact hfirst j (by omega) hcf
    · intro hki
      exact ⟨y[k], List.mem_take_iff_getElem.mpr ⟨k, by omega, rfl⟩, hforeign⟩

/-! ### The bytes delivered -/

/-- The host reads the three bytes of a triplet back in order (R44, R103). -/
@[simp] theorem responseBytes_triplet (t : Triplet) : responseBytes (.triplet t) = t.toList := by
  obtain ⟨-, h1, h2, h3⟩ := argByte_fourBytes 0#8 t.b1 t.b2 t.b3
  simp only [argByte] at h1 h2 h3
  simp [responseBytes, Response.triplet, tripletDatum, Triplet.toList, h1, h2, h3]

@[simp] theorem responseBytes_nothing : responseBytes .nothing = [] := rfl

/-- The first four pushes deliver their triplet, and the others go on from an idle DEC. -/
theorem dpushResponses_group {c1 c2 c3 c4 : Byte} {t : Triplet} (rest : List Byte)
    (h : unpack c1 c2 c3 c4 = some t) :
    dpushResponses (c1 :: c2 :: c3 :: c4 :: rest) =
      .nothing :: .nothing :: .nothing :: .triplet t :: dpushResponses rest := by
  obtain ⟨v1, v2, v3, v4, h1, h2, h3, h4, rfl⟩ := exists_values_of_unpack h
  have happend := ruleRun_append [.dpush c1, .dpush c2, .dpush c3, .dpush c4] (rest.map .dpush) Arch.reset
  rw [ruleRun_four_dpush Arch.reset rfl h1 h2 h3 h4] at happend
  exact congrArg Prod.snd happend

/-- Fewer pushes than a group deliver nothing. -/
theorem dpushResponses_of_length_lt {y : List Byte} (h : y.length < 4) :
    dpushResponses y = List.replicate y.length .nothing := by
  refine List.eq_replicate_iff.mpr ⟨dpushResponses_length y, fun r hr => ?_⟩
  obtain ⟨i, hi, rfl⟩ := List.mem_iff_getElem.mp hr
  rw [dpushResponses_length] at hi
  refine Option.some.inj ((List.getElem?_eq_getElem _).symm.trans ?_)
  rw [dpushResponses_getElem? y i hi, dpushRule_archOfHistory_nothing []]
  rw [List.length_take_of_le (by omega)]
  omega

/-- Pushes of alphabet characters deliver the triplets of the whole groups (R120). -/
theorem flatMap_responseBytes (y : List Byte) (h : ∀ c ∈ y, isForeign c = false) :
    (dpushResponses y).flatMap responseBytes = decodeGroups y := by
  induction y, h using goodString_induction with
  | short y _ hlen => simp [dpushResponses_of_length_lt hlen, decodeGroups_of_length_lt hlen]
  | group s1 s2 s3 s4 rest _ t ht ih => simp [dpushResponses_group rest ht, decodeGroups_group rest ht, ih]

/-- The result of a transaction is that of `decode_buffer` (R119). -/
theorem decodeResult_transaction (y : List Byte) :
    decodeResult (dpushResponses y) (dendResponse y) = decodeBuffer y := by
  rw [dendResponse, dendRule_archOfHistory_snd]
  by_cases hlen : y.length % 4 = 0
  · by_cases hbad : y.any isForeign = true
    · rw [decodeBuffer_of_foreign hlen hbad, if_neg (not_not.mpr hlen), if_pos hbad]; rfl
    · have hgood := (any_isForeign_eq_false_iff y).mp (Bool.eq_false_iff.mpr hbad)
      rw [decodeBuffer_of_good hlen hgood, if_neg (not_not.mpr hlen), if_neg hbad, ← flatMap_responseBytes y hgood]
      rfl
  · rw [decodeBuffer_of_malformed hlen, if_pos hlen]; rfl

/-- Settles O43: each push is its rule after the earlier characters, and whether a foreign one was among them is what
the first foreign group says. -/
theorem decoderRefinement : Obligations.DecoderRefinement := by
  intro s y hidle
  refine ⟨_, dpushResponses y, dendResponse y, run_decodeTransaction s y hidle, (List.append_assoc ..).symm, rfl, rfl,
    hidle, rfl, decodeResult_transaction y, dpushResponses_length y, fun i hi hmod hbefore => ?delivers,
    fun i hi hnone => ?nothing, dendRule_archOfHistory_snd [] y⟩ <;>
    have hlen : (y.take i).length = i := List.length_take_of_le (Nat.le_of_lt hi)
  case delivers =>
    have hgood : (y.take i ++ [y.getD i 0]).any isForeign = false := by
      rw [take_append_getD y i hi, Bool.eq_false_iff, Ne, any_take_iff_firstForeignGroup y i hmod]
      rintro ⟨g, hg, hle⟩
      exact absurd (hbefore g hg) (by omega)
    obtain ⟨t, ht, hr⟩ := dpushRule_archOfHistory_triplet [] (by rw [hlen, hmod]) hgood
    rw [hlen, getD_take y (by omega), getD_take y (by omega), getD_take y (by omega)] at ht
    exact ⟨t, ht, by rw [dpushResponses_getElem? y i hi, hr]⟩
  case nothing =>
    rw [dpushResponses_getElem? y i hi, dpushRule_archOfHistory_nothing []]
    rw [take_append_getD y i hi, hlen]
    by_cases hmod : i % 4 = 3
    · rw [any_take_iff_firstForeignGroup y i hmod]
      exact .inr (hnone.resolve_left (absurd hmod))
    · exact .inl hmod

/-! ### Both units -/

/-- What is not in a whole group decodes to nothing. -/
theorem decodeGroups_take (y : List Byte) (h : ∀ c ∈ y, isForeign c = false) :
    decodeGroups (y.take (4 * (y.length / 4))) = decodeGroups y := by
  induction y, h using goodString_induction with
  | short y _ hlen => rw [Nat.div_eq_of_lt hlen, decodeGroups_of_length_lt hlen]; rfl
  | group s1 s2 s3 s4 rest _ t ht ih =>
    have hlen : (s1 :: s2 :: s3 :: s4 :: rest).length = rest.length + 4 := rfl
    rw [hlen, Nat.add_div_right _ (by omega), Nat.mul_succ, decodeGroups_group rest ht, ← ih]
    exact decodeGroups_group _ ht

/-- Settles O44: the responses to the pushes deliver the whole groups, and the state is the one the history
determines. -/
theorem streamingPrefix : Obligations.StreamingPrefix := by
  refine ⟨fun s x hidle => ?enc, fun s y hidle hgood => ?dec⟩
  case enc =>
    exact ⟨_, _, run_epushes s x hidle, rfl, encodeResult_epushResponses x, archOfHistory_encPart x []⟩
  case dec =>
    refine ⟨_, _, run_dpushes s y hidle, rfl, ?bytes, ?held⟩
    case bytes =>
      have hlen : (y.take (4 * (y.length / 4))).length % 4 = 0 := by
        rw [List.length_take_of_le (Nat.mul_div_le _ _), Nat.mul_mod_right]
      rw [decodeBuffer_of_good hlen fun c hc => hgood c (List.mem_of_mem_take hc), decodeGroups_take y hgood,
        flatMap_responseBytes y hgood]
    case held =>
      rw [← (any_isForeign_eq_false_iff y).mpr hgood]; rfl

/-- Settles O45: the results are those of the two buffer functions, whose lengths and characters are known. -/
theorem transactionLengths : Obligations.TransactionLengths := by
  refine ⟨fun s x hidle => ⟨_, _, run_encodeTransaction s x hidle, rfl, ?_⟩,
    fun s y z hidle => ⟨_, dpushResponses y, dendResponse y, run_decodeTransaction s y hidle,
      (List.append_assoc ..).symm, dpushResponses_length y, fun hok => ?_⟩⟩
  · rw [encodeResult_transaction]
    exact ⟨encodeBuffer_length x, encodeBuffer_mem_alphabetTable x⟩
  · rw [decodeResult_transaction] at hok
    obtain ⟨hlen, hgood, rfl⟩ := (decodeBuffer_eq_ok_iff y z).mp hok
    rw [decodeGroups_length y hgood]
    omega

end Sys2Proof.Proofs
end

section
/-! The trim of trailing zero bytes (R132), and the hex backend's round trip as functions and on the machine (R133 to
R135). -/

namespace Sys2Proof.Proofs

open Sys2Proof.Machine Sys2Proof.Laws

/-! ### trim_trailing_zero_bytes (R132) -/

/-- The trim is the library's drop from the right, so that one's lemmas are about it. -/
theorem trimTrailingZeroBytes_eq_rdropWhile (z : List Byte) : trimTrailingZeroBytes z = z.rdropWhile (· == 0) := rfl

theorem trimTrailingZeroBytes_concat_zero (z : List Byte) :
    trimTrailingZeroBytes (z ++ [0]) = trimTrailingZeroBytes z :=
  List.rdropWhile_concat_pos _ z 0 rfl

theorem trimTrailingZeroBytes_concat_of_ne_zero (z : List Byte) {b : Byte} (hb : b ≠ 0) :
    trimTrailingZeroBytes (z ++ [b]) = z ++ [b] :=
  List.rdropWhile_concat_neg _ z b (by simpa using hb)

/-- The trim leaves alone exactly the buffers that do not end in a byte of value 0. -/
theorem trimTrailingZeroBytes_eq_self_iff (z : List Byte) :
    trimTrailingZeroBytes z = z ↔ z.getLast? ≠ some 0 := by
  obtain rfl | ⟨z, b, rfl⟩ := z.eq_nil_or_concat'
  · exact iff_of_true rfl (by simp)
  · rw [trimTrailingZeroBytes_eq_rdropWhile, List.rdropWhile_eq_self_iff]
    simp

theorem getLast?_trimTrailingZeroBytes (z : List Byte) : (trimTrailingZeroBytes z).getLast? ≠ some 0 :=
  (trimTrailingZeroBytes_eq_self_iff _).mp (List.rdropWhile_idempotent _ z)

/-- What the trim removes is zeros. -/
theorem exists_eq_trimTrailingZeroBytes_append_zeros (z : List Byte) :
    ∃ k, z = trimTrailingZeroBytes z ++ zeros k := by
  have hzeros : z.rtakeWhile (· == 0) = zeros (z.rtakeWhile (· == 0)).length :=
    List.eq_replicate_length.mpr fun b hb => by simpa using List.mem_rtakeWhile_imp hb
  refine ⟨(z.rtakeWhile (· == 0)).length, ?_⟩
  rw [← hzeros, trimTrailingZeroBytes_eq_rdropWhile, List.rdropWhile_append_rtakeWhile]

theorem trimTrailingZeroBytes_append_zeros (z : List Byte) (k : Nat) :
    trimTrailingZeroBytes (z ++ zeros k) = trimTrailingZeroBytes z := by
  induction k with
  | zero => exact congrArg _ (List.append_nil z)
  | succ k ih => rw [zeros, List.replicate_succ', ← List.append_assoc, trimTrailingZeroBytes_concat_zero]; exact ih

/-- A prefix that does not end in a byte of value 0 loses nothing to the trim of the whole. -/
theorem prefix_trimTrailingZeroBytes {p z : List Byte} (hpre : p <+: z) (hlast : p.getLast? ≠ some 0) :
    p <+: trimTrailingZeroBytes z := by
  induction z using List.reverseRecOn with
  | nil => exact hpre
  | append_singleton z b ih =>
    obtain rfl | hshorter := List.prefix_concat_iff.mp hpre
    · rw [(trimTrailingZeroBytes_eq_self_iff _).mpr hlast]
    · by_cases hb : b = 0
      · rw [hb, trimTrailingZeroBytes_concat_zero]
        exact ih hshorter
      · rwa [trimTrailingZeroBytes_concat_of_ne_zero z hb]

/-- Settles O51: that no prefix is longer goes by induction on the buffer from its end. -/
theorem trimIsTheLongestPrefix : Obligations.TrimIsTheLongestPrefix := fun z =>
  ⟨List.rdropWhile_prefix _ z, getLast?_trimTrailingZeroBytes z, exists_eq_trimTrailingZeroBytes_append_zeros z,
    fun _ => prefix_trimTrailingZeroBytes⟩

/-! ### The hex backend (R133 to R135) -/

/-- A buffer of hex digits does not end in a byte of value 0: that is no hex digit. -/
theorem getLast?_of_isHexDigit {y : List Byte} (h : ∀ c ∈ y, isHexDigit c = true) : y.getLast? ≠ some 0 :=
  fun hlast => absurd (h 0 (List.mem_of_getLast? hlast)) (by decide)

/-- Why the trim is exact for this backend (R135): it removes the fabricated zeros and no hex digit. -/
theorem trimTrailingZeroBytes_hexEncode_append_zeros (h : HexCodec) (text : List Byte) (k : Nat) :
    trimTrailingZeroBytes (h.hexEncode text ++ zeros k) = h.hexEncode text := by
  rw [trimTrailingZeroBytes_append_zeros]
  exact (trimTrailingZeroBytes_eq_self_iff _).mpr (getLast?_of_isHexDigit (h.isHexDigit_hexEncode text))

/-- Trimming and hex-decoding what the codec delivers gives the text, however many zeros were fabricated. -/
theorem hexDecode_trimTrailingZeroBytes (h : HexCodec) (text : List Byte) (k : Nat) :
    h.hexDecode (trimTrailingZeroBytes (h.hexEncode text ++ zeros k)) = some text := by
  rw [trimTrailingZeroBytes_hexEncode_append_zeros, h.hexDecode_hexEncode]

theorem stripPrefix_hexMarker (y : List Byte) : stripPrefix (hexMarker ++ y) = .ok y := if_pos rfl

/-- With the marker in front and a string that decodes, what the hex backend gives is its codec's answer (R134). -/
theorem hexCodec_decode_hexMarker (h : HexCodec) {y z text : List Byte} (hbuffer : decodeBuffer y = .ok z)
    (hcodec : h.hexDecode (trimTrailingZeroBytes z) = some text) : h.decode (hexMarker ++ y) = .ok text := by
  simp only [HexCodec.decode, stripPrefix_hexMarker, CodecResult.andThen, hbuffer, hcodec]

/-- The number of fabricated bytes by the length of the short final group (R122). -/
theorem padCount_eq_ite (y : List Byte) :
    padCount y = if y.length % 3 = 0 then 0 else if y.length % 3 = 1 then 2 else 1 := by
  simp only [padCount]
  split_ifs <;> omega

/-- Settles O53: the buffer codec returns the hex digits and the fabricated zeros, and the trim tells the two apart. -/
theorem hexBackendRoundTrip : Obligations.HexBackendRoundTrip := fun h text =>
  ⟨decodeBuffer_encodeBuffer _, trimTrailingZeroBytes_hexEncode_append_zeros h text _,
    hexCodec_decode_hexMarker h (decodeBuffer_encodeBuffer _) (hexDecode_trimTrailingZeroBytes h text _),
    padCount_eq_ite _⟩

/-- Decoding the characters an encode transaction delivers returns the payload and the fabricated zeros (R122, a). -/
theorem decodeResult_encodeResult (x : List Byte) :
    let y := encodeResult (epushResponses x ++ [eendResponse x])
    decodeResult (dpushResponses y) (dendResponse y) = .ok (x ++ zeros (padCount x)) := by
  simp only [encodeResult_transaction, decodeResult_transaction, decodeBuffer_encodeBuffer]

/-- Settles O54: the transactions compute the two buffer functions and leave no trace but their responses. -/
theorem hexRoundTripOnTheMachine : Obligations.HexRoundTripOnTheMachine := by
  intro h s text henc hdec
  exact ⟨_, _, _, _, _, _, run_encodeTransaction s (h.hexEncode text) henc, rfl, run_decodeTransaction _ _ hdec,
    (List.append_assoc ..).symm, decodeResult_encodeResult (h.hexEncode text),
    hexDecode_trimTrailingZeroBytes h text _, rfl⟩

end Sys2Proof.Proofs
end

section
/-! The causes of the two failures: which status each command answers, and that a failure records nothing but its code
(R142, R143). -/

namespace Sys2Proof.Proofs

open Sys2Proof.Machine Sys2Proof.Laws

/-! ### The status of each command (R142, R143) -/

/-- The status a command is to answer by R142 and R143: only `VALOF`, `UNPACK` and `DEND` can fail. -/
def statusOf : Instr → Arch → Status
  | .valof c, _ => if isForeign c = true then .invalidSymbol else .ok
  | .unpack s1 s2 s3 s4, _ =>
    if (isForeign s1 || isForeign s2 || isForeign s3 || isForeign s4) = true then .invalidSymbol else .ok
  | .dend, a => if a.dcnt ≠ 0 then .malformedLength else if a.dbad = true then .invalidSymbol else .ok
  | .symof _, _ | .pack .., _ | .epush _, _ | .eend, _ | .dpush _, _ => .ok

/-- Unpack is undefined exactly when the test for a foreign character succeeds on one of the four (R91). -/
theorem unpack_eq_none_iff_isForeign (s1 s2 s3 s4 : Byte) :
    unpack s1 s2 s3 s4 = none ↔ (isForeign s1 || isForeign s2 || isForeign s3 || isForeign s4) = true := by
  simp [unpack_eq_none_iff, isForeign_iff_valueOf, or_assoc]

/-- The rule of every command answers that status. -/
theorem rule_snd_st (i : Instr) (a : Arch) : (rule i a).2.st = statusOf i a := by
  cases i with
  | symof | pack => rfl
  | valof c =>
    cases h : valueOf c with
    | none => rw [rule, valofRule_of_eq_none a h]; simp [statusOf, isForeign, h]
    | some v => rw [rule, valofRule_of_eq_some a h]; simp [statusOf, isForeign, h, Response.value]
  | unpack s1 s2 s3 s4 =>
    have hforeign := unpack_eq_none_iff_isForeign s1 s2 s3 s4
    cases h : unpack s1 s2 s3 s4 with
    | none => rw [rule, unpackRule_of_eq_none a h]; exact (if_pos (hforeign.mp h)).symm
    | some t => rw [rule, unpackRule_of_eq_some a h]; exact (if_neg (by simp [← hforeign, h])).symm
  | epush b => obtain ⟨-, hr⟩ | ⟨-, hr⟩ | ⟨-, -, hr⟩ := epushRule_cases b a <;> rw [rule, hr] <;> rfl
  | eend => simp only [rule, eendRule]; split <;> rfl
  | dpush c =>
    by_cases hp : a.dcnt = 3
    · rw [rule, dpushRule_of_eq_three c a hp]
      obtain ⟨v, -, -, hr⟩ | ⟨-, hr⟩ := groupResponse_cases a (valueOf c) <;> rw [hr] <;> rfl
    · rw [rule, dpushRule_of_ne_three c a hp]; rfl
  | dend => rw [rule, dendRule_eq, dendVerdict, statusOf]; split_ifs <;> rfl

theorem statusOf_eq_malformedLength_iff (i : Instr) (a : Arch) :
    statusOf i a = .malformedLength ↔ i = .dend ∧ a.dcnt ≠ 0 := by
  cases i with
  | dend =>
    by_cases hcnt : a.dcnt = 0#2
    · cases hbad : a.dbad <;> simp [statusOf, hcnt, hbad]
    · simp [statusOf, hcnt]
  | valof | unpack => simp only [statusOf]; split_ifs <;> simp
  | symof | pack | epush | eend | dpush => simp [statusOf]

theorem statusOf_eq_invalidSymbol_iff (i : Instr) (a : Arch) :
    statusOf i a = .invalidSymbol ↔
      (∃ c, i = .valof c ∧ isForeign c = true) ∨
      (∃ s1 s2 s3 s4, i = .unpack s1 s2 s3 s4 ∧
        (isForeign s1 || isForeign s2 || isForeign s3 || isForeign s4) = true) ∨
      (i = .dend ∧ a.dcnt = 0 ∧ a.dbad = true) := by
  cases i with
  | dend =>
    by_cases hcnt : a.dcnt = 0#2
    · cases hbad : a.dbad <;> simp [statusOf, hcnt, hbad]
    · simp [statusOf, hcnt]
  | valof | unpack => simp only [statusOf]; split_ifs with hforeign <;> simpa using hforeign
  | symof | pack | epush | eend | dpush => simp [statusOf]

/-! ### What a failure records and changes (R145) -/

/-- A command that does not answer `OK` answers its code and nothing else (R64, R145). -/
theorem rule_snd_eq_failure {i : Instr} {a : Arch} {st : Status} (hst : (rule i a).2.st = st) (hfail : st ≠ .ok) :
    (rule i a).2 = .failure st := by
  have hwf := rule_snd_wf i a
  generalize (rule i a).2 = r at hst hwf
  obtain ⟨st', n, dat⟩ := r
  obtain rfl : st' = st := hst
  simpa [Response.wf, Response.failureIsEmpty, Response.failure, hfail] using (Bool.and_eq_true_iff.mp hwf).2

/-- `DEND` leaves DEC idle and ENC's fields as they were, whatever its verdict (R112). -/
theorem rule_dend_fst (a : Arch) : (rule .dend a).1.decIdle ∧ (rule .dend a).1.encPart = a.encPart :=
  ⟨(dendRule_fst a).symm ▸ clearDec_decIdle a, rule_encPart .dend a (by decide)⟩

/-! ### The two causes -/

/-- Settles O25: only the verdict of `DEND` is ever `MalformedLength`. -/
theorem malformedLengthCause : Obligations.MalformedLengthCause := by
  intro i s
  have hcause : (rule i s.spc).2.st = .malformedLength ↔ i = .dend ∧ s.spc.dcnt ≠ 0 := by
    rw [rule_snd_st, statusOf_eq_malformedLength_iff]
  refine ⟨_, _, exec_eq_next i s, rfl, hcause, fun hst => ⟨rule_snd_eq_failure hst (by decide), ?_⟩⟩
  obtain ⟨rfl, -⟩ := hcause.mp hst
  exact rule_dend_fst s.spc

/-- Settles O26: of the three causes two are leaf commands, which change no state; the third is the verdict of
`DEND`. -/
theorem invalidSymbolCause : Obligations.InvalidSymbolCause := by
  intro i s
  have hcause := statusOf_eq_invalidSymbol_iff i s.spc
  rw [← rule_snd_st] at hcause
  refine ⟨_, _, exec_eq_next i s, rfl, hcause, fun hst => rule_snd_eq_failure hst (by decide),
    fun hst hne => ?leaf, fun _ hi => ?dend⟩
  case leaf =>
    obtain ⟨c, rfl, -⟩ | ⟨s1, s2, s3, s4, rfl, -⟩ | ⟨hdend, -⟩ := hcause.mp hst
    · exact rule_fst_of_isLeaf _ s.spc rfl
    · exact rule_fst_of_isLeaf _ s.spc rfl
    · exact absurd hdend hne
  case dend => exact hi ▸ rule_dend_fst s.spc

end Sys2Proof.Proofs
end

section
/-! A `dbad` carried into a string (hazard H3): it suppresses every triplet and fails the verdict (R168, b). -/

namespace Sys2Proof.Proofs

open Sys2Proof.Machine Sys2Proof.Laws

/-- With `dbad` set a push delivers nothing, in whatever phase (R110). -/
theorem dpushRule_snd_of_dbad (c : Byte) {a : Arch} (hbad : a.dbad = true) : (dpushRule c a).2 = .nothing := by
  by_cases hp : a.dcnt = 3
  · rw [dpushRule_suppresses hp (by simp [hbad])]
  · rw [dpushRule_of_ne_three c a hp]

/-- `dbad` stays set over the pushes of a string, each of which therefore delivers nothing (R25, R110). -/
theorem ruleRun_dpushes_of_dbad (y : List Byte) {a : Arch} (hbad : a.dbad = true) :
    (ruleRun (y.map .dpush) a).1.dbad = true ∧
      (ruleRun (y.map .dpush) a).2 = List.replicate y.length .nothing := by
  induction y generalizing a with
  | nil => exact ⟨hbad, rfl⟩
  | cons c y ih =>
    have hsticky : (dpushRule c a).1.dbad = true := by simp [dpushRule_dbad, hbad]
    obtain ⟨hlast, hothers⟩ := ih hsticky
    exact ⟨hlast, congrArg₂ List.cons (dpushRule_snd_of_dbad c hbad) hothers⟩

/-- With `dbad` set the verdict is a failure, the length coming first (R112, R144). -/
theorem dendVerdict_of_dbad {a : Arch} (hbad : a.dbad = true) :
    dendVerdict a = .failure .malformedLength ∨ dendVerdict a = .failure .invalidSymbol := by
  by_cases hp : a.dcnt = 0
  · exact .inr (by simp [dendVerdict, hp, hbad])
  · exact .inl (if_pos hp)

/-- Settles O50: `dbad` is still set when `DEND` reads it, and only then cleared. -/
theorem carriedDbadFailsTheNextString : Obligations.CarriedDbadFailsTheNextString := by
  intro s y hbad
  obtain ⟨hlast, hpushes⟩ := ruleRun_dpushes_of_dbad y hbad
  have hrun := run_running s (decodeTransaction y)
  rw [show (decodeTransaction y).length = y.length + 1 by simp [decodeTransaction], decodeTransaction,
    ruleRun_append, hpushes, ← List.append_assoc] at hrun
  refine ⟨_, _, hrun, rfl, ?verdict, (rule_dend_fst _).1⟩
  case verdict => simpa only [rule, dendRule_eq] using dendVerdict_of_dbad hlast

end Sys2Proof.Proofs
end

section
/-! The response word: each field read back from its place, and a word read back by its status code (R64, R141); and
that every command answers one word of an allowed shape (R66, R150, U3). -/

namespace Sys2Proof.Proofs

open Sys2Proof.Machine Sys2Proof.Laws

/-! ### The fields (R64) -/

/-- A response word as a number: three fields side by side. -/
theorem toNat_responseWord (r : Response) :
    (responseWord r).toNat = ((statusCode r.st).toNat * 2 ^ 3 + r.n.toNat) * 2 ^ 32 + r.dat.toNat := by
  have hhigh : (statusCode r.st ++ r.n).toNat = (statusCode r.st).toNat * 2 ^ 3 + r.n.toNat := toNat_append _ _
  rw [← hhigh]
  exact toNat_append _ _

@[simp] theorem responseWord_status (r : Response) : (responseWord r).extractLsb' 35 2 = statusCode r.st := by
  apply BitVec.eq_of_toNat_eq
  rw [toNat_extract, toNat_responseWord]; omega

@[simp] theorem responseWord_count (r : Response) : (responseWord r).extractLsb' 32 3 = r.n := by
  apply BitVec.eq_of_toNat_eq
  rw [toNat_extract, toNat_responseWord]; omega

@[simp] theorem responseWord_datum (r : Response) : (responseWord r).extractLsb' 0 32 = r.dat := by
  apply BitVec.eq_of_toNat_eq
  rw [toNat_extract, toNat_responseWord]; omega

/-- A word of 37 bits is its three fields. -/
theorem responseWord_fields (w : ResponseWord) :
    w.extractLsb' 35 2 ++ w.extractLsb' 32 3 ++ w.extractLsb' 0 32 = w := by
  apply BitVec.eq_of_toNat_eq
  have hlow := toNat_append (w.extractLsb' 35 2 ++ w.extractLsb' 32 3) (w.extractLsb' 0 32)
  have hhigh := toNat_append (w.extractLsb' 35 2) (w.extractLsb' 32 3)
  rw [toNat_extract, toNat_extract] at hhigh
  rw [hhigh, toNat_extract] at hlow
  rw [hlow]; omega

/-! ### The status codes (R141) -/

/-- The status of a code; the code 3 is none (R68, R141). -/
def statusOfCode (code : BitVec 2) : Option Status :=
  if code = 0 then some .ok else if code = 1 then some .malformedLength
  else if code = 2 then some .invalidSymbol else none

/-- The codes are written and read alike. -/
theorem statusOfCode_eq_some_iff (code : BitVec 2) (st : Status) :
    statusOfCode code = some st ↔ statusCode st = code := by
  rcases phase_cases code with rfl | rfl | rfl | rfl <;> cases st <;> decide

theorem statusOfCode_eq_none_iff (code : BitVec 2) : statusOfCode code = none ↔ code = 3 := by
  rcases phase_cases code with rfl | rfl | rfl | rfl <;> decide

/-- A word is read by its status code; the other two fields are taken as they are. -/
theorem readResponse_eq (w : ResponseWord) :
    readResponse w =
      (statusOfCode (w.extractLsb' 35 2)).map (⟨·, w.extractLsb' 32 3, w.extractLsb' 0 32⟩) := by
  have hhigh : w[36] = (w.extractLsb' 35 2)[1] := by simp
  have hlow : w[35] = (w.extractLsb' 35 2)[0] := by simp
  simp only [readResponse, hhigh, hlow]
  rcases phase_cases (w.extractLsb' 35 2) with h | h | h | h <;> rw [h] <;> rfl

/-- A word is read back as a response exactly when it is the word of that response. -/
theorem readResponse_eq_some_iff (w : ResponseWord) (r : Response) :
    readResponse w = some r ↔ responseWord r = w := by
  rw [readResponse_eq]
  constructor
  · intro h
    obtain ⟨st, hst, rfl⟩ := Option.map_eq_some_iff.mp h
    rw [responseWord, (statusOfCode_eq_some_iff _ st).mp hst]
    exact responseWord_fields w
  · rintro rfl
    rw [responseWord_status, responseWord_count, responseWord_datum, (statusOfCode_eq_some_iff _ r.st).mpr rfl]
    rfl

/-- Settles O5: the word is read by its status code, and the codes are written and read alike. -/
theorem responseWordLayout : Obligations.ResponseWordLayout := by
  refine ⟨fun r => ⟨responseWord_status r, responseWord_count r, responseWord_datum r,
    (readResponse_eq_some_iff _ r).mpr rfl⟩, fun w => ?none, fun w r => (readResponse_eq_some_iff w r).mp,
    ⟨rfl, rfl, rfl⟩, fun w => ?codes⟩
  case none => rw [readResponse_eq, Option.map_eq_none_iff, statusOfCode_eq_none_iff]
  case codes =>
    rw [readResponse_eq]
    refine ⟨fun h => ?_, fun h => ?_, fun h => ?_⟩ <;> rw [h] <;> rfl

/-! ### Every command answers (R66, R150) -/

/-- No status has the code 3 (R68, U3). -/
theorem statusCode_ne_three (st : Status) : statusCode st ≠ 3 := by cases st <;> decide

/-- Settles O21: the response is the one of the command's rule. -/
theorem everyCommandAnswersOnce : Obligations.EveryCommandAnswersOnce := fun i s =>
  ⟨_, _, exec_eq_next i s, rule_snd_wf i s.spc, by rw [responseWord_status]; exact statusCode_ne_three _⟩

end Sys2Proof.Proofs
end

section
/-! The quadruplet of a short final group, its missing bytes zeros (R96, R106). -/

namespace Sys2Proof.Proofs

open Sys2Proof.Machine Sys2Proof.Laws

/-- The last lane of a zero byte is the character '0' (R96). -/
theorem pack_i4_of_zero (b1 b2 : Byte) : (pack b1 b2 0).i4 = 0x30 := by
  obtain ⟨-, -, -, h4⟩ := packV_toNat b1 b2 0
  have hlane : (packV b1 b2 0).i4 = 0 := BitVec.eq_of_toNat_eq h4
  rw [pack, Quartet.map, hlane]; rfl

/-- With two zero bytes the third lane is the character '0' too (R96). -/
theorem pack_i3_of_zero_zero (b1 : Byte) : (pack b1 0 0).i3 = 0x30 := by
  obtain ⟨-, -, h3, -⟩ := packV_toNat b1 0 0
  have hlane : (packV b1 0 0).i3 = 0 := BitVec.eq_of_toNat_eq h3
  rw [pack, Quartet.map, hlane]; rfl

/-- With two zero bytes the second lane holds the low two bits of the byte, above four zeros (R96). -/
theorem pack_i2_of_zero_zero (b1 : Byte) : (pack b1 0 0).i2 ∈ ([0x30, 0x47, 0x57, 0x6D] : List Byte) := by
  obtain ⟨-, h2, -, -⟩ := packV_toNat b1 0 0
  have hzero : (0 : Byte).toNat = 0 := rfl
  have hlane : (packV b1 0 0).i2 ∈ ([0, 16, 32, 48] : List Value) := by
    simp only [List.mem_cons, List.not_mem_nil, or_false, ← BitVec.toNat_inj]
    show _ = 0 ∨ _ = 16 ∨ _ = 32 ∨ _ = 48
    omega
  exact List.mem_map_of_mem (f := symbolOf) hlane

/-- With one zero byte the value of the third lane has its low two bits zero (R96). -/
theorem valueOf_pack_i3_of_zero (b1 b2 : Byte) :
    ∃ v : Value, valueOf (pack b1 b2 0).i3 = some v ∧ v.toNat % 4 = 0 := by
  obtain ⟨-, -, h3, -⟩ := packV_toNat b1 b2 0
  have hzero : (0 : Byte).toNat = 0 := rfl
  exact ⟨(packV b1 b2 0).i3, valueOf_symbolOf _, by omega⟩

/-- Settles O12: lane by lane what the zero bytes leave, and `EEND` packs the held bytes and zeros. -/
theorem paddedQuadruplet : Obligations.PaddedQuadruplet := by
  refine ⟨fun b1 => ⟨pack_i3_of_zero_zero b1, pack_i4_of_zero b1 0, pack_i2_of_zero_zero b1⟩,
    fun b1 b2 => ⟨pack_i4_of_zero b1 b2, valueOf_pack_i3_of_zero b1 b2⟩,
    fun s hp => ⟨_, _, exec_eq_next .eend s, rfl, ?_⟩, fun s hp => ⟨_, _, exec_eq_next .eend s, rfl, ?_⟩⟩ <;>
    obtain ⟨-, hone, htwo⟩ := eendRule_phase s.spc
  · rw [rule, hone hp]; rfl
  · rw [rule, htwo hp]; rfl

end Sys2Proof.Proofs
end

section
/-! The two units side by side, command by command and in a run: what a command reads and leaves alone, and which
commands commute (R20, R32, R47, R48). -/

namespace Sys2Proof.Proofs

open Sys2Proof.Machine Sys2Proof.Laws

/-! ### What a command reads -/

/-- The two states have the same fields of the unit of this family; a leaf family has no unit. -/
def AgreeOn (f : Family) (a b : Arch) : Prop :=
  (f = .enc → a.encPart = b.encPart) ∧ (f = .dec → a.decPart = b.decPart)

theorem AgreeOn.refl (f : Family) (a : Arch) : AgreeOn f a a := ⟨fun _ => rfl, fun _ => rfl⟩

theorem AgreeOn.trans {f : Family} {a b c : Arch} : AgreeOn f a b → AgreeOn f b c → AgreeOn f a c
  | ⟨henc, hdec⟩, ⟨henc', hdec'⟩ => ⟨fun h => (henc h).trans (henc' h), fun h => (hdec h).trans (hdec' h)⟩

/-- A command of another family leaves a unit's fields as they are (R32). -/
theorem rule_agreeOn_of_ne {f : Family} (i : Instr) (a : Arch) (h : i.family ≠ f) : AgreeOn f (rule i a).1 a :=
  ⟨fun henc => rule_encPart i a (henc ▸ h), fun hdec => rule_decPart i a (hdec ▸ h)⟩

/-- A leaf command answers the same in every state (R20, R47). -/
theorem rule_snd_of_isLeaf (i : Instr) (a b : Arch) (h : i.isLeaf = true) : (rule i a).2 = (rule i b).2 := by
  cases i with
  | symof | pack => rfl
  | valof c => simp only [rule, valofRule]; split <;> rfl
  | unpack s1 s2 s3 s4 => simp only [rule, unpackRule]; split <;> rfl
  | epush | eend | dpush | dend => cases h

/-- What a command answers and makes of its own unit depends on that unit's fields alone (R32). -/
theorem rule_congr (i : Instr) {a b : Arch} (h : AgreeOn i.family a b) :
    (rule i a).2 = (rule i b).2 ∧ AgreeOn i.family (rule i a).1 (rule i b).1 := by
  obtain ⟨henc, hdec⟩ := h
  cases hf : i.family with
  | enc =>
    rw [← unitsOf_self b, ← unitsOf_congr_enc b (henc hf), rule_unitsOf_enc i a b hf]
    exact ⟨rfl, fun _ => rfl, nofun⟩
  | dec =>
    rw [← unitsOf_self b, ← unitsOf_congr_dec b (hdec hf), rule_unitsOf_dec i b a hf]
    exact ⟨rfl, nofun, fun _ => rfl⟩
  | alphabet | triplet => exact ⟨rule_snd_of_isLeaf i a b (by simp [Instr.isLeaf, hf]), nofun, nofun⟩

/-- Settles O23: the frame is that of the two units, the secrecy that a command reads its own unit only. -/
theorem unitsAreDisjoint : Obligations.UnitsAreDisjoint := by
  refine ⟨fun i s => ⟨_, exec_eq_next i s, rule_encPart i s.spc, rule_decPart i s.spc, rfl, rfl⟩,
    fun i s s' henc hdec => ?_⟩
  obtain ⟨hresponse, henc', hdec'⟩ := rule_congr i (a := s.spc) (b := s'.spc) ⟨henc, hdec⟩
  exact ⟨_, _, _, exec_eq_next i s, exec_eq_next i s', rfl, by rw [hresponse], henc', hdec'⟩

/-! ### Commands that commute (R48) -/

/-- Two commands in either order make the same state and answer, each to its own command, the same two responses. -/
def Commutes (i j : Instr) (a : Arch) : Prop :=
  (rule i (rule j a).1).1 = (rule j (rule i a).1).1 ∧
  (rule i (rule j a).1).2 = (rule i a).2 ∧ (rule j (rule i a).1).2 = (rule j a).2

/-- A leaf command commutes with every command: it changes no state and reads none. -/
theorem commute_of_isLeaf (i j : Instr) (a : Arch) (h : i.isLeaf = true) : Commutes i j a := by
  rw [Commutes, rule_fst_of_isLeaf i _ h, rule_fst_of_isLeaf i a h]
  exact ⟨rfl, rule_snd_of_isLeaf i _ a h, rfl⟩

/-- A command of ENC commutes with one of DEC: each works on its own half of the state. -/
theorem commute_of_enc_dec {i j : Instr} (a : Arch) (hi : i.family = .enc) (hj : j.family = .dec) :
    Commutes i j a := by
  have hfirst : (rule i a).1 = unitsOf (rule i a).1 a := congrArg Prod.fst (rule_unitsOf_enc i a a hi)
  have hsecond : (rule j a).1 = unitsOf a (rule j a).1 := congrArg Prod.fst (rule_unitsOf_dec j a a hj)
  have hij := rule_unitsOf_dec j (rule i a).1 a hj
  have hji := rule_unitsOf_enc i a (rule j a).1 hi
  rw [← hfirst] at hij
  rw [← hsecond] at hji
  exact ⟨by rw [hij, hji], by rw [hji], by rw [hij]⟩

/-- Settles O24, from the two reasons commands commute. -/
theorem commandsCommute : Obligations.CommandsCommute := by
  intro i j s h
  have hcommute : Commutes i j s.spc := by
    obtain ⟨hi, hj⟩ | hleaf := h
    · exact commute_of_enc_dec s.spc hi hj
    · exact commute_of_isLeaf i j s.spc hleaf
  obtain ⟨hstate, hi, hj⟩ := hcommute
  refine ⟨(rule i s.spc).2, (rule j s.spc).2, (rule j (rule i s.spc).1).1, _, _, exec_eq_next i s, ?_,
    exec_eq_next j s, ?_⟩
  · rw [exec_eq_next, hj, List.append_assoc]; rfl
  · rw [exec_eq_next, hi, hstate, List.append_assoc]; rfl

/-! ### Leaf, end and push commands (R47) -/

/-- `EEND` with ENC idle answers nothing and changes nothing (R106). -/
theorem exec_eend_of_encIdle (s : State) (h : s.spc.encIdle) :
    exec .eend s = .next { s with offered := s.offered ++ [⟨.ok, 0, 0⟩] } := by
  obtain ⟨-, -, hcnt⟩ := (encIdle_iff s.spc).mp h
  obtain ⟨hzero, -⟩ := eendRule_phase s.spc
  rw [exec_eq_next, rule, hzero hcnt]; rfl

/-- `DEND` with DEC idle answers nothing and changes nothing (R112). -/
theorem exec_dend_of_decIdle (s : State) (h : s.spc.decIdle) :
    exec .dend s = .next { s with offered := s.offered ++ [⟨.ok, 0, 0⟩] } := by
  obtain ⟨-, hcnt, hbad⟩ := (decIdle_iff s.spc).mp h
  have hclear : s.spc.clearDec = s.spc := unitsOf_congr_dec (d := s.spc.clearDec) s.spc h.symm
  have hverdict : dendVerdict s.spc = ⟨.ok, 0, 0⟩ := by simp [dendVerdict, hcnt, hbad, Response.nothing]
  rw [exec_eq_next, rule, dendRule_eq, hclear, hverdict]

/-- A push into ENC advances its phase, round to 0 (R47, R104). -/
theorem epushRule_ecnt_ne (b : Byte) {a : Arch} (h : a.encWf) : (epushRule b a).1.ecnt ≠ a.ecnt := by
  obtain ⟨hne3, -⟩ := h
  obtain ⟨hzero, hone, htwo⟩ := epushRule_phase b a
  rcases phase_cases a.ecnt with hp | hp | hp | hp
  · rw [hzero hp, hp]; simp
  · rw [hone hp, hp]; simp
  · rw [htwo hp, hp]; simp
  · exact absurd hp hne3

/-- A push into DEC advances its phase, round to 0 (R47, R110). -/
theorem dpushRule_dcnt_ne (c : Byte) (a : Arch) : (dpushRule c a).1.dcnt ≠ a.dcnt := by
  by_cases hp : a.dcnt = 3
  · rw [dpushRule_of_eq_three c a hp, hp]; simp
  · rw [dpushRule_of_ne_three c a hp]; simp

/-- Settles O22: a leaf command reads no state, an end command leaves its unit idle, and a push advances its phase. -/
theorem leafCommandsAreStateless : Obligations.LeafCommandsAreStateless := by
  obtain ⟨heend, hdend, -⟩ := endCommandsLeaveUnitsIdle
  refine ⟨fun i hleaf => ⟨(rule i Arch.reset).2, fun s => ?leaf⟩, fun s h => ?eend, fun s => ?dend,
    fun b s h => ⟨_, exec_eq_next _ s, epushRule_ecnt_ne b h⟩,
    fun c s => ⟨_, exec_eq_next _ s, dpushRule_dcnt_ne c s.spc⟩⟩
  case leaf => rw [exec_of_isLeaf i s hleaf, rule_snd_of_isLeaf i s.spc Arch.reset hleaf]
  case eend =>
    obtain ⟨t, ht, hidle⟩ := heend s h
    exact ⟨t, ht, exec_eend_of_encIdle t hidle⟩
  case dend =>
    obtain ⟨t, ht, hidle⟩ := hdend s
    exact ⟨t, ht, exec_dend_of_decIdle t hidle⟩

/-! ### A unit within a run (R48, R102) -/

section
variable {f : Family} {w : CommandWord} {words : List CommandWord} {r : Response} {responses : List Response}

theorem familyWords_cons_of_eq (h : (decode w).family = f) :
    familyWords f (w :: words) = w :: familyWords f words := by
  simp [familyWords, h]

theorem familyWords_cons_of_ne (h : (decode w).family ≠ f) :
    familyWords f (w :: words) = familyWords f words := by
  simp [familyWords, h]

theorem familyResponses_cons_of_eq (h : (decode w).family = f) :
    familyResponses f (w :: words) (r :: responses) = r :: familyResponses f words responses := by
  simp [familyResponses, h]

theorem familyResponses_cons_of_ne (h : (decode w).family ≠ f) :
    familyResponses f (w :: words) (r :: responses) = familyResponses f words responses := by
  simp [familyResponses, h]

end

/-- Within a run, the commands of one family answer, and leave in their unit, what they do when run alone from a state
with the same fields of that unit. -/
theorem ruleRun_family (f : Family) (words : List CommandWord) {a b : Arch} (h : AgreeOn f a b) :
    familyResponses f words (ruleRun (words.map decode) a).2 = (ruleRun ((familyWords f words).map decode) b).2 ∧
    AgreeOn f (ruleRun (words.map decode) a).1 (ruleRun ((familyWords f words).map decode) b).1 := by
  induction words generalizing a b with
  | nil => exact ⟨rfl, h⟩
  | cons w words ih =>
    by_cases hf : (decode w).family = f
    · obtain ⟨hresponse, hagree⟩ := rule_congr (decode w) (hf ▸ h)
      obtain ⟨hothers, hlast⟩ := ih (hf ▸ hagree)
      rw [familyWords_cons_of_eq hf, List.map_cons, List.map_cons, ruleRun_cons, ruleRun_cons,
        familyResponses_cons_of_eq hf, hresponse, hothers]
      exact ⟨rfl, hlast⟩
    · rw [familyWords_cons_of_ne hf, List.map_cons, ruleRun_cons, familyResponses_cons_of_ne hf]
      exact ih ((rule_agreeOn_of_ne (decode w) a hf).trans h)

/-- Settles O49: both runs begin in one state, so the unit begins with the same fields. -/
theorem interleavingIsolation : Obligations.InterleavingIsolation := by
  intro s words f _
  obtain ⟨hresponses, henc, hdec⟩ := ruleRun_family f words (AgreeOn.refl f s.spc)
  exact ⟨_, _, _, _, run_presenting s words, run_presenting s (familyWords f words), rfl, by simp, rfl,
    hresponses, henc, hdec⟩

end Sys2Proof.Proofs
end

section
/-! Steps and ports: a pending word is decoded and executed, a take moves the oldest response, a reset gives `S0` (R30,
R61, R66, R160), and a host that takes each response is answered (R171, R175). -/

namespace Sys2Proof.Proofs

open Sys2Proof.Machine Sys2Proof.Laws

/-! ### One event -/

/-- Settles O4: each of the nine words is decoded. -/
theorem wordsOfTheSpecDecode : Obligations.WordsOfTheSpecDecode := by
  unfold Obligations.WordsOfTheSpecDecode
  decide

/-- Every command is well formed: no operand is out of range (R67, R68). -/
theorem instr_wf (i : Instr) : i.wf = true := by cases i <;> rfl

/-- Settles O29. -/
theorem stepRunsTheDecodedCommand : Obligations.StepRunsTheDecodedCommand := by
  intro s w rest h
  refine ⟨instr_wf _, ?_⟩
  rw [step_command h, exec_eq_next]

/-- A take with a response offered moves the oldest one (R53, R61). -/
theorem step_take_of_offered {s : State} {r : Response} {rs : List Response} {rest : List HostEvent}
    (hp : s.pending = .take :: rest) (ho : s.offered = r :: rs) :
    step s = .next { s with pending := rest, offered := rs, taken := s.taken ++ [r] } :=
  (step_take hp).trans (congrArg _ (takeResponse_cons { s with pending := rest } r rs ho))

/-- Settles O30: the port has a response to move or has none. -/
theorem portEventsMoveResponses : Obligations.PortEventsMoveResponses := by
  refine ⟨fun s r rs rest hp ho => ⟨?word, step_take_of_offered hp ho⟩, fun s rest hp ho => ⟨?valid, ?stands⟩,
    fun s => step_nil⟩
  case word => rw [State.rspData, ho]; rfl
  case valid => rw [State.rspValid, ho]; rfl
  case stands => exact (step_take hp).trans (congrArg _ (takeResponse_nil { s with pending := rest } ho))

/-- Settles O32. -/
theorem resetEventGivesS0 : Obligations.ResetEventGivesS0 := fun _ _ h => ⟨step_reset h, rfl, rfl, rfl⟩

/-- Settles O36: reset with no event placed. -/
theorem resetMeetsTheInvariant : Obligations.ResetMeetsTheInvariant := reset_inv []

/-- Settles O58. -/
theorem resetIsTheEmptyHistory : Obligations.ResetIsTheEmptyHistory := archReset_eq_archOfHistory

/-! ### A host that takes each response (R171, R175) -/

/-- What a host that presents these words and takes each response does. -/
def commandsAndTakes (words : List CommandWord) : List HostEvent := words.flatMap fun w => [.command w, .take]

/-- With no response offered, a command and a take leave none offered: the command's response is taken (R171). -/
theorem run_command_take {s : State} {w : CommandWord} {rest : List HostEvent} (ho : s.offered = [])
    (hp : s.pending = .command w :: .take :: rest) :
    run 2 s = .next { s with
      spc := (rule (decode w) s.spc).1, pending := rest, taken := s.taken ++ [(rule (decode w) s.spc).2] } := by
  rw [run_succ_of_step 1 (step_command hp), ho, run_succ_of_step 0 (step_take_of_offered rfl rfl), run_zero]

/-- Over such a host's events the responses are taken one by one, those of the spec's run of the words (R171). -/
theorem run_commandsAndTakes (words : List CommandWord) {s : State} (hp : s.pending = commandsAndTakes words)
    (ho : s.offered = []) :
    run (2 * words.length) s = .next
      { spc := (ruleRun (words.map decode) s.spc).1
        pending := []
        offered := []
        taken := s.taken ++ (ruleRun (words.map decode) s.spc).2 } := by
  induction words generalizing s with
  | nil =>
    obtain ⟨spc, pending, offered, taken⟩ := s
    obtain rfl : pending = [] := hp
    obtain rfl : offered = [] := ho
    simp
  | cons w words ih =>
    have hfirst := run_command_take ho hp
    have hlength : 2 * (w :: words).length = 2 + 2 * words.length := by rw [List.length_cons]; omega
    rw [hlength, run_add 2 _ hfirst]
    exact Eq.trans (ih rfl ho) (by simp)

/-- Settles O34: both runs give the responses of the spec's run of the words, the one taken and the other offered. -/
theorem everyCommandIsAnswered : Obligations.EveryCommandIsAnswered := by
  intro s words ho
  refine ⟨_, _, run_commandsAndTakes words rfl ho, run_presenting s words, rfl, ?taken, ?answered, rfl⟩
  case taken => rw [ho]; rfl
  case answered => rw [ho]; simp

end Sys2Proof.Proofs
end

section
/-! The hex codec of vector S1 keeps the contract (R133, R134), and what each backend makes of the failures of its parts
(R131, R134, R137). -/

namespace Sys2Proof.Proofs

open Sys2Proof.Machine Sys2Proof.Laws

/-! ### Digits and values -/

/-- The value of a digit is the digit's. -/
@[simp] theorem hexValue_digit (d : BitVec 4) : hexValue (hexDigit d) = some d := by revert d; decide

/-- The digit of a value is the character it was read from, in each of the two ranges of `0-9a-f`. -/
theorem hexDigit_of_hexValue {c : Byte} {d : BitVec 4} (h : hexValue c = some d) : hexDigit d = c := by
  apply BitVec.eq_of_toNat_eq
  simp only [hexValue] at h
  split_ifs at h with hnum hletter <;> obtain rfl := Option.some.inj h <;> simp only [hexDigit, BitVec.toNat_ofNat]
  · rw [if_pos (by omega)]; simp; omega
  · rw [if_neg (by omega)]; simp; omega

/-- A character is of `0-9a-f` exactly when it has a value (R133, R134). -/
theorem isHexDigit_iff_hexValue (c : Byte) : isHexDigit c = true ↔ ∃ d, hexValue c = some d := by
  simp only [isHexDigit, hexValue, Bool.or_eq_true, Bool.and_eq_true, decide_eq_true_eq]
  split_ifs with hnum hletter <;> simp [*]

/-! ### The transform and its inverse (R133, R134) -/

@[simp] theorem highFirstHex_nil : highFirstHex [] = [] := rfl

@[simp] theorem highFirstHex_cons (b : Byte) (text : List Byte) :
    highFirstHex (b :: text) = hexDigit (b.extractLsb' 4 4) :: hexDigit (b.extractLsb' 0 4) :: highFirstHex text := rfl

/-- Two characters per byte (R133). -/
theorem highFirstHex_length (text : List Byte) : (highFirstHex text).length = 2 * text.length := by
  induction text with
  | nil => rfl
  | cons b text ih => simp only [highFirstHex_cons, List.length_cons, ih]; omega

/-- The output is over `0-9a-f` (R133). -/
theorem isHexDigit_of_mem_highFirstHex (text : List Byte) : ∀ c ∈ highFirstHex text, isHexDigit c = true := by
  intro c hc
  obtain ⟨b, -, hc⟩ := List.mem_flatMap.mp hc
  obtain rfl | hc := List.mem_cons.mp hc
  · exact (isHexDigit_iff_hexValue _).mpr ⟨_, hexValue_digit _⟩
  · rw [List.mem_singleton.mp hc]
    exact (isHexDigit_iff_hexValue _).mpr ⟨_, hexValue_digit _⟩

/-- A byte is its two digits, the high one first. -/
theorem byte_digits (b : Byte) : (b.extractLsb' 4 4 ++ b.extractLsb' 0 4 : BitVec 8) = b := by
  apply BitVec.eq_of_toNat_eq
  have happend := toNat_append (b.extractLsb' 4 4) (b.extractLsb' 0 4)
  rw [toNat_extract, toNat_extract] at happend
  rw [happend]; omega

theorem digits_of_append (h l : BitVec 4) :
    (h ++ l : BitVec 8).extractLsb' 4 4 = h ∧ (h ++ l : BitVec 8).extractLsb' 0 4 = l := by
  have happend := toNat_append h l
  constructor <;> apply BitVec.eq_of_toNat_eq <;> rw [toNat_extract, happend] <;> omega

theorem highFirstBytes_highFirstHex (text : List Byte) : highFirstBytes (highFirstHex text) = some text := by
  induction text with
  | nil => rfl
  | cons b text ih => simp [highFirstBytes, ih, byte_digits]

/-- What the inverse takes is what the transform gives, so it rejects anything else (R134). -/
theorem highFirstHex_of_highFirstBytes (y : List Byte) {text : List Byte} (h : highFirstBytes y = some text) :
    highFirstHex text = y := by
  induction y using highFirstBytes.induct generalizing text with
  | case1 => cases h; rfl
  | case2 => cases h
  | case3 hc lc rest dh dl hh hl ih =>
    simp only [highFirstBytes, hh, hl] at h
    obtain ⟨text, htext, rfl⟩ := Option.map_eq_some_iff.mp h
    obtain ⟨hhigh, hlow⟩ := digits_of_append dh dl
    rw [highFirstHex_cons, hhigh, hlow, hexDigit_of_hexValue hh, hexDigit_of_hexValue hl, ih htext]
  | case4 => simp [highFirstBytes] at h

/-- An odd length and a character outside `0-9a-f` are rejected: no output of the transform has either (R134). -/
theorem highFirstBytes_eq_none {y : List Byte} (h : y.length % 2 = 1 ∨ ∃ c ∈ y, isHexDigit c = false) :
    highFirstBytes y = none := by
  refine Option.eq_none_iff_forall_ne_some.mpr fun text htext => ?_
  obtain rfl := highFirstHex_of_highFirstBytes y htext
  obtain hodd | ⟨c, hc, hdigit⟩ := h
  · rw [highFirstHex_length] at hodd; omega
  · rw [isHexDigit_of_mem_highFirstHex text c hc] at hdigit; cases hdigit

/-- The transform of vector S1 as a codec with the contract of R133 and R134 (log 12). -/
def highFirstCodec : HexCodec where
  hexEncode := highFirstHex
  hexDecode := highFirstBytes
  length_hexEncode := highFirstHex_length
  isHexDigit_hexEncode := isHexDigit_of_mem_highFirstHex
  hexDecode_hexEncode := highFirstBytes_highFirstHex
  hexDecode_odd _ hodd := highFirstBytes_eq_none (.inl hodd)
  hexDecode_nonDigit _ hdigit := highFirstBytes_eq_none (.inr hdigit)

/-- Settles O52: the contract's clauses are the fields of `highFirstCodec`. -/
theorem hexCodecContract : Obligations.HexCodecContract := by
  refine ⟨fun text => ⟨highFirstHex_length text, fun c hc => ?digit, highFirstBytes_highFirstHex text⟩,
    fun y => highFirstBytes_eq_none, highFirstCodec, rfl, rfl⟩
  have hdigit := isHexDigit_of_mem_highFirstHex text c hc
  exact ⟨fun hzero => absurd (hzero ▸ hdigit) (by decide), hdigit⟩

/-! ### Failures (R131, R134, R137) -/

/-- The hex backend passes an error of `decode_buffer` on (R137). -/
theorem hexCodec_decode_of_err (h : HexCodec) {y : List Byte} {e : CodecError} (hbuffer : decodeBuffer y = .err e) :
    h.decode (hexMarker ++ y) = .err e := by
  simp only [HexCodec.decode, stripPrefix_hexMarker, CodecResult.andThen, hbuffer]

/-- What the hex codec rejects is an upstream failure (R134, R137). -/
theorem hexCodec_decode_of_rejected (h : HexCodec) {y z : List Byte} (hbuffer : decodeBuffer y = .ok z)
    (hcodec : h.hexDecode (trimTrailingZeroBytes z) = none) :
    h.decode (hexMarker ++ y) = .err .upstreamCodecFailure := by
  simp only [HexCodec.decode, stripPrefix_hexMarker, CodecResult.andThen, hbuffer, hcodec]

/-- The deflate backend passes an error of `decode_buffer` on (R137). -/
theorem deflateCodec_decode_of_err (d : DeflateCodec) {y : List Byte} {e : CodecError}
    (hbuffer : decodeBuffer y = .err e) : d.decode y = .err e := by
  simp only [DeflateCodec.decode, CodecResult.andThen, hbuffer]

/-- What the decompressor rejects is an upstream failure (R131, R137). -/
theorem deflateCodec_decode_of_rejected (d : DeflateCodec) {y z : List Byte} (hbuffer : decodeBuffer y = .ok z)
    (hcodec : d.decompress z = none) : d.decode y = .err .upstreamCodecFailure := by
  simp only [DeflateCodec.decode, CodecResult.andThen, hbuffer, hcodec]

/-- What the decompressor gives is checked to be UTF-8, the backend's final step (R131, R137). -/
theorem deflateCodec_decode_of_decompressed (d : DeflateCodec) {y z u : List Byte} (hbuffer : decodeBuffer y = .ok z)
    (hcodec : d.decompress z = some u) : d.decode y = if validUtf8 u then .ok u else .err .invalidUtf8 := by
  simp only [DeflateCodec.decode, CodecResult.andThen, hbuffer, hcodec]

/-- Settles O56: one lemma for each part that can fail. -/
theorem backendsSurfaceFailures : Obligations.BackendsSurfaceFailures := by
  refine ⟨fun h _ _ => hexCodec_decode_of_err h,
    fun h y z hbuffer hbad =>
      hexCodec_decode_of_rejected h hbuffer (hbad.elim (h.hexDecode_odd _) (h.hexDecode_nonDigit _)),
    fun d _ _ => deflateCodec_decode_of_err d, fun d _ _ => deflateCodec_decode_of_rejected d,
    fun d y z u hbuffer hcodec hutf8 => ?_⟩
  rw [deflateCodec_decode_of_decompressed d hbuffer hcodec, if_neg (by simp [hutf8])]

end Sys2Proof.Proofs
end

section
/-! UTF-8 (log 17): the check takes exactly the bytes of texts, the bytes tell the text, and so the deflate backend
returns every text (R131). -/

namespace Sys2Proof.Proofs

open Sys2Proof.Machine Sys2Proof.Laws

/-! ### The four forms -/

section
variable {c : Char}

theorem utf8OfChar_oneByte (h : c.toNat < 0x80) : utf8OfChar c = [BitVec.ofNat 8 c.toNat] := by
  simp only [utf8OfChar, if_pos h]

theorem utf8OfChar_twoBytes (h : 0x80 ≤ c.toNat) (h' : c.toNat < 0x800) :
    utf8OfChar c = [BitVec.ofNat 8 (0xC0 + c.toNat / 64), utf8Tail c.toNat] := by
  simp only [utf8OfChar, if_neg (Nat.not_lt.mpr h), if_pos h']

theorem utf8OfChar_threeBytes (h : 0x800 ≤ c.toNat) (h' : c.toNat < 0x10000) :
    utf8OfChar c = [BitVec.ofNat 8 (0xE0 + c.toNat / 4096), utf8Tail (c.toNat / 64), utf8Tail c.toNat] := by
  simp only [utf8OfChar]
  rw [if_neg (by omega), if_neg (by omega), if_pos h']

theorem utf8OfChar_fourBytes (h : 0x10000 ≤ c.toNat) :
    utf8OfChar c = [BitVec.ofNat 8 (0xF0 + c.toNat / 262144), utf8Tail (c.toNat / 4096), utf8Tail (c.toNat / 64),
      utf8Tail c.toNat] := by
  simp only [utf8OfChar]
  rw [if_neg (by omega), if_neg (by omega), if_neg (by omega)]

end

/-- Which form a scalar value has. -/
theorem utf8Form_cases (n : Nat) :
    n < 0x80 ∨ (0x80 ≤ n ∧ n < 0x800) ∨ (0x800 ≤ n ∧ n < 0x10000) ∨ 0x10000 ≤ n := by omega

/-- A character is a Unicode scalar value: no surrogate, and at most 0x10FFFF. -/
theorem char_toNat_valid (c : Char) : c.toNat < 0xD800 ∨ (0xDFFF < c.toNat ∧ c.toNat < 0x110000) := c.valid

theorem exists_char_toNat_eq {n : Nat} (h : n < 0xD800 ∨ (0xDFFF < n ∧ n < 0x110000)) : ∃ c : Char, c.toNat = n :=
  ⟨Char.ofNat n, (Char.toNat_ofNat n).trans (if_pos h)⟩

/-! ### The bytes tell the text -/

/-- The model's UTF-8 of a character is the library's. -/
theorem utf8OfChar_eq_utf8EncodeChar (c : Char) :
    utf8OfChar c = (String.utf8EncodeChar c).map UInt8.toBitVec := by
  have hval : c.val.toNat = c.toNat := rfl
  have hvalid := char_toNat_valid c
  rw [String.utf8EncodeChar, hval]
  rcases utf8Form_cases c.toNat with h | ⟨h, h'⟩ | ⟨h, h'⟩ | h
  · rw [utf8OfChar_oneByte h, if_pos (by omega)]; rfl
  · have hlead : c.toNat / 64 % 32 = c.toNat / 64 := Nat.mod_eq_of_lt (by omega)
    rw [utf8OfChar_twoBytes h h', if_neg (by omega), if_pos (by omega), hlead]
    simp only [utf8Tail, Nat.add_comm]; rfl
  · have hlead : c.toNat / 4096 % 16 = c.toNat / 4096 := Nat.mod_eq_of_lt (by omega)
    rw [utf8OfChar_threeBytes h h', if_neg (by omega), if_neg (by omega), if_pos (by omega), hlead]
    simp only [utf8Tail, Nat.add_comm]; rfl
  · have hlead : c.toNat / 262144 % 8 = c.toNat / 262144 := Nat.mod_eq_of_lt (by omega)
    rw [utf8OfChar_fourBytes h, if_neg (by omega), if_neg (by omega), if_neg (by omega), hlead]
    simp only [utf8Tail, Nat.add_comm]; rfl

/-- The model's UTF-8 of a text is the library's. -/
theorem utf8Bytes_eq_flatMap_utf8EncodeChar (t : Text) :
    utf8Bytes t = (t.flatMap String.utf8EncodeChar).map UInt8.toBitVec := by
  rw [utf8Bytes, List.map_flatMap, funext utf8OfChar_eq_utf8EncodeChar]

/-- A text's bytes tell the text: the library decodes them. -/
theorem utf8Bytes_injective : Function.Injective utf8Bytes := by
  intro t u h
  simp only [utf8Bytes_eq_flatMap_utf8EncodeChar] at h
  have hbytes := List.map_injective_iff.mpr (fun _ _ => UInt8.toBitVec_inj.mp) h
  have hencoded : t.utf8Encode = u.utf8Encode := congrArg List.toByteArray hbytes
  have hdecoded := List.utf8Decode?_utf8Encode (l := t)
  rw [hencoded, List.utf8Decode?_utf8Encode, Option.some.injEq] at hdecoded
  exact List.toArray_inj hdecoded.symm

/-! ### What may follow a first byte -/

/-- The byte stands in the range of bytes that are due. -/
def InRange (range : Nat × Nat) (b : Byte) : Prop := range.1 ≤ b.toNat ∧ b.toNat ≤ range.2

/-- The range of a byte after the first, but for the second byte of a long form. -/
def tailRange : Nat × Nat := (0x80, 0xBF)

/-- The range of the second byte in a form of three or four bytes. -/
def secondRange (first : Nat) : Nat × Nat :=
  (if first = 0xE0 then 0xA0 else if first = 0xF0 then 0x90 else 0x80,
    if first = 0xED then 0x9F else if first = 0xF4 then 0x8F else 0xBF)

theorem inRange_tailRange_iff (b : Byte) : InRange tailRange b ↔ 0x80 ≤ b.toNat ∧ b.toNat ≤ 0xBF := Iff.rfl

/-- The second byte is one of a tail, further restricted after four of the first bytes. -/
theorem inRange_secondRange_iff (first : Nat) (b : Byte) :
    InRange (secondRange first) b ↔ (0x80 ≤ b.toNat ∧ b.toNat ≤ 0xBF) ∧
      (first = 0xE0 → 0xA0 ≤ b.toNat) ∧ (first = 0xED → b.toNat ≤ 0x9F) ∧
      (first = 0xF0 → 0x90 ≤ b.toNat) ∧ (first = 0xF4 → b.toNat ≤ 0x8F) := by
  simp only [InRange, secondRange]
  split_ifs <;> omega

section
variable {a : Byte}

theorem utf8Due_oneByte (h : a.toNat < 0x80) : utf8Due a = some [] := by
  simp only [utf8Due, if_pos h]

theorem utf8Due_twoBytes (h : 0xC2 ≤ a.toNat) (h' : a.toNat < 0xE0) : utf8Due a = some [tailRange] := by
  simp only [utf8Due]
  rw [if_neg (by omega), if_neg (by omega), if_pos h', tailRange]

theorem utf8Due_threeBytes (h : 0xE0 ≤ a.toNat) (h' : a.toNat < 0xF0) :
    utf8Due a = some [secondRange a.toNat, tailRange] := by
  grind [utf8Due, secondRange, tailRange]

theorem utf8Due_fourBytes (h : 0xF0 ≤ a.toNat) (h' : a.toNat < 0xF5) :
    utf8Due a = some [secondRange a.toNat, tailRange, tailRange] := by
  grind [utf8Due, secondRange, tailRange]

theorem utf8Due_eq_none (h : (0x80 ≤ a.toNat ∧ a.toNat < 0xC2) ∨ 0xF5 ≤ a.toNat) : utf8Due a = none := by
  grind [utf8Due]

end

/-- The numbers that are no first byte, and the first bytes of the four forms. -/
theorem firstByte_cases (n : Nat) :
    ((0x80 ≤ n ∧ n < 0xC2) ∨ 0xF5 ≤ n) ∨
    n < 0x80 ∨ (0xC2 ≤ n ∧ n < 0xE0) ∨ (0xE0 ≤ n ∧ n < 0xF0) ∨ (0xF0 ≤ n ∧ n < 0xF5) := by omega

/-! ### The bytes of one character -/

theorem utf8Tail_toNat (n : Nat) : (utf8Tail n).toNat = 0x80 + n % 64 := by
  rw [utf8Tail, BitVec.toNat_ofNat]; omega

theorem ofNat_eq_of_eq_toNat {n : Nat} {b : Byte} (h : n = b.toNat) : BitVec.ofNat 8 n = b := by
  rw [h, BitVec.ofNat_toNat, BitVec.setWidth_eq]

/-- The bytes of a character are a first byte and bytes that are due after it. -/
theorem utf8OfChar_due (c : Char) :
    ∃ a tail due, utf8OfChar c = a :: tail ∧ utf8Due a = some due ∧ List.Forall₂ InRange due tail := by
  have hvalid := char_toNat_valid c
  rcases utf8Form_cases c.toNat with h | ⟨h, h'⟩ | ⟨h, h'⟩ | h
  · exact ⟨_, _, _, utf8OfChar_oneByte h, utf8Due_oneByte (by simp; omega), .nil⟩
  · refine ⟨_, _, _, utf8OfChar_twoBytes h h', utf8Due_twoBytes (by simp; omega) (by simp; omega), ?_⟩
    simp [inRange_tailRange_iff, utf8Tail_toNat]; omega
  · refine ⟨_, _, _, utf8OfChar_threeBytes h h', utf8Due_threeBytes (by simp; omega) (by simp; omega), ?_⟩
    simp [inRange_tailRange_iff, inRange_secondRange_iff, utf8Tail_toNat]; omega
  · refine ⟨_, _, _, utf8OfChar_fourBytes h, utf8Due_fourBytes (by simp; omega) (by simp; omega), ?_⟩
    simp [inRange_tailRange_iff, inRange_secondRange_iff, utf8Tail_toNat]; omega

section
variable {a b d e : Byte}

/-- Two bytes in their ranges are those of a character; a first byte below 0xC2 would be a longer form than needed. -/
theorem exists_utf8OfChar_eq_two (ha : 0xC2 ≤ a.toNat ∧ a.toNat < 0xE0) (hb : InRange tailRange b) :
    ∃ c, utf8OfChar c = [a, b] := by
  rw [inRange_tailRange_iff] at hb
  obtain ⟨c, hc⟩ := exists_char_toNat_eq (n := (a.toNat - 0xC0) * 64 + (b.toNat - 0x80)) (by omega)
  refine ⟨c, ?_⟩
  rw [utf8OfChar_twoBytes (by omega) (by omega)]
  simp only [List.cons.injEq, and_true]
  exact ⟨ofNat_eq_of_eq_toNat (by omega), ofNat_eq_of_eq_toNat (by omega)⟩

/-- Three bytes in their ranges are those of a character; the second byte's shut out longer forms and surrogates. -/
theorem exists_utf8OfChar_eq_three (ha : 0xE0 ≤ a.toNat ∧ a.toNat < 0xF0) (hb : InRange (secondRange a.toNat) b)
    (hd : InRange tailRange d) : ∃ c, utf8OfChar c = [a, b, d] := by
  rw [inRange_secondRange_iff] at hb
  rw [inRange_tailRange_iff] at hd
  obtain ⟨c, hc⟩ := exists_char_toNat_eq
    (n := (a.toNat - 0xE0) * 4096 + (b.toNat - 0x80) * 64 + (d.toNat - 0x80)) (by omega)
  refine ⟨c, ?_⟩
  rw [utf8OfChar_threeBytes (by omega) (by omega)]
  simp only [List.cons.injEq, and_true]
  exact ⟨ofNat_eq_of_eq_toNat (by omega), ofNat_eq_of_eq_toNat (by omega), ofNat_eq_of_eq_toNat (by omega)⟩

/-- Four bytes in their ranges are those of a character; the second byte's shut out longer forms and values above
0x10FFFF. -/
theorem exists_utf8OfChar_eq_four (ha : 0xF0 ≤ a.toNat ∧ a.toNat < 0xF5) (hb : InRange (secondRange a.toNat) b)
    (hd : InRange tailRange d) (he : InRange tailRange e) : ∃ c, utf8OfChar c = [a, b, d, e] := by
  rw [inRange_secondRange_iff] at hb
  rw [inRange_tailRange_iff] at hd he
  obtain ⟨c, hc⟩ := exists_char_toNat_eq
    (n := (a.toNat - 0xF0) * 262144 + (b.toNat - 0x80) * 4096 + (d.toNat - 0x80) * 64 + (e.toNat - 0x80)) (by omega)
  refine ⟨c, ?_⟩
  rw [utf8OfChar_fourBytes (by omega)]
  simp only [List.cons.injEq, and_true]
  exact ⟨ofNat_eq_of_eq_toNat (by omega), ofNat_eq_of_eq_toNat (by omega), ofNat_eq_of_eq_toNat (by omega),
    ofNat_eq_of_eq_toNat (by omega)⟩

end

/-- A first byte and bytes that are due after it are those of a character. -/
theorem exists_utf8OfChar {a : Byte} {due : List (Nat × Nat)} {tail : List Byte} (hdue : utf8Due a = some due)
    (htail : List.Forall₂ InRange due tail) : ∃ c, utf8OfChar c = a :: tail := by
  rcases firstByte_cases a.toNat with hbad | h | h | h | h
  · rw [utf8Due_eq_none hbad] at hdue; cases hdue
  · rw [utf8Due_oneByte h] at hdue
    cases hdue; cases htail
    obtain ⟨c, hc⟩ := exists_char_toNat_eq (n := a.toNat) (by omega)
    exact ⟨c, by rw [utf8OfChar_oneByte (hc ▸ h), ofNat_eq_of_eq_toNat hc]⟩
  · rw [utf8Due_twoBytes h.1 h.2] at hdue
    cases hdue
    match tail, htail with
    | [_], .cons hb .nil => exact exists_utf8OfChar_eq_two h hb
  · rw [utf8Due_threeBytes h.1 h.2] at hdue
    cases hdue
    match tail, htail with
    | [_, _], .cons hb (.cons hd .nil) => exact exists_utf8OfChar_eq_three h hb hd
  · rw [utf8Due_fourBytes h.1 h.2] at hdue
    cases hdue
    match tail, htail with
    | [_, _, _], .cons hb (.cons hd (.cons he .nil)) => exact exists_utf8OfChar_eq_four h hb hd he

/-! ### The check -/

@[simp] theorem validUtf8_nil : validUtf8 [] = true := rfl

/-- The check of a first byte goes on with what is due after it. -/
theorem validUtf8_cons_iff (a : Byte) (bytes : List Byte) :
    validUtf8 (a :: bytes) = true ↔ ∃ due, utf8Due a = some due ∧ validUtf8From due bytes = true := by
  simp only [validUtf8, validUtf8From]
  cases utf8Due a <;> simp

/-- With bytes due, the check takes those and then UTF-8. -/
theorem validUtf8From_iff (due : List (Nat × Nat)) (bytes : List Byte) :
    validUtf8From due bytes = true ↔
      ∃ tail rest, bytes = tail ++ rest ∧ List.Forall₂ InRange due tail ∧ validUtf8 rest = true := by
  induction due generalizing bytes with
  | nil => simp [List.forall₂_nil_left_iff, validUtf8]
  | cons range due ih =>
    cases bytes with
    | nil => simp [validUtf8From]
    | cons b bytes =>
      have hstep : validUtf8From (range :: due) (b :: bytes) = true ↔
          InRange range b ∧ validUtf8From due bytes = true := by
        simp [validUtf8From, InRange]
      rw [hstep, ih]
      constructor
      · rintro ⟨hb, tail, rest, rfl, htail, hrest⟩
        exact ⟨b :: tail, rest, rfl, .cons hb htail, hrest⟩
      · rintro ⟨_, rest, hbytes, htail, hrest⟩
        obtain ⟨b', tail, hb, hothers, rfl⟩ := List.forall₂_cons_left_iff.mp htail
        obtain ⟨rfl, rfl⟩ := List.cons.inj hbytes
        exact ⟨hb, tail, rest, rfl, hothers, hrest⟩

/-- The check takes a character in front of what it takes. -/
theorem validUtf8_utf8OfChar_append (c : Char) {rest : List Byte} (h : validUtf8 rest = true) :
    validUtf8 (utf8OfChar c ++ rest) = true := by
  obtain ⟨a, tail, due, hc, hdue, htail⟩ := utf8OfChar_due c
  rw [hc, List.cons_append, validUtf8_cons_iff]
  exact ⟨due, hdue, (validUtf8From_iff due _).mpr ⟨tail, rest, rfl, htail, h⟩⟩

/-- What the check takes begins with a character, and it takes the rest. -/
theorem exists_char_of_validUtf8 {a : Byte} {bytes : List Byte} (h : validUtf8 (a :: bytes) = true) :
    ∃ c rest, a :: bytes = utf8OfChar c ++ rest ∧ rest.length ≤ bytes.length ∧ validUtf8 rest = true := by
  obtain ⟨due, hdue, h⟩ := (validUtf8_cons_iff a bytes).mp h
  obtain ⟨tail, rest, rfl, htail, hrest⟩ := (validUtf8From_iff due bytes).mp h
  obtain ⟨c, hc⟩ := exists_utf8OfChar hdue htail
  exact ⟨c, rest, by rw [hc]; rfl, by simp, hrest⟩

/-! ### Texts -/

@[simp] theorem utf8Bytes_cons (c : Char) (t : Text) : utf8Bytes (c :: t) = utf8OfChar c ++ utf8Bytes t := rfl

theorem validUtf8_utf8Bytes (t : Text) : validUtf8 (utf8Bytes t) = true := by
  induction t with
  | nil => rfl
  | cons c t ih => exact validUtf8_utf8OfChar_append c ih

/-- What the check takes is characters one after the other. -/
theorem exists_text_of_validUtf8 (bytes : List Byte) (h : validUtf8 bytes = true) : ∃ t, utf8Bytes t = bytes := by
  match bytes with
  | [] => exact ⟨[], rfl⟩
  | a :: bytes =>
    obtain ⟨c, rest, hbytes, _, hrest⟩ := exists_char_of_validUtf8 h
    obtain ⟨t, ht⟩ := exists_text_of_validUtf8 rest hrest
    exact ⟨c :: t, by rw [utf8Bytes_cons, ht, hbytes]⟩
termination_by bytes.length

/-- Settles O59: the check takes a text character by character, and the library decodes what it is encoded as. -/
theorem validUtf8IsTheUtf8OfTexts : Obligations.ValidUtf8IsTheUtf8OfTexts :=
  ⟨fun bytes => ⟨exists_text_of_validUtf8 bytes, fun ⟨t, ht⟩ => ht ▸ validUtf8_utf8Bytes t⟩,
    fun _ _ h => utf8Bytes_injective h⟩

/-! ### The deflate backend (R131) -/

/-- At most two bytes are fabricated (R122). -/
theorem padCount_le_two (x : List Byte) : padCount x ≤ 2 := by
  rw [padCount]; omega

/-- The codec absorbs the fabricated zeros, so the backend's answer is the check's (R131). -/
theorem deflateCodec_decode_encode (d : DeflateCodec) (text : List Byte) :
    d.decode (d.encode text) = if validUtf8 text then .ok text else .err .invalidUtf8 :=
  deflateCodec_decode_of_decompressed d (decodeBuffer_encodeBuffer (d.compress text))
    (d.absorbsPadding text _ (padCount_le_two _))

/-- Settles O55: what comes back is the buffer when the check takes it, and the check takes every text. -/
theorem deflateBackendRoundTrip : Obligations.DeflateBackendRoundTrip := by
  refine ⟨fun d t => ?text, fun d text h => ?valid, fun d text h => ?invalid⟩ <;> rw [deflateCodec_decode_encode]
  case text => rw [if_pos (validUtf8_utf8Bytes t)]
  case valid => rw [if_pos h]
  case invalid => rw [if_neg (by simp [h])]

end Sys2Proof.Proofs
end
